-- ==== Sys2Proof/Config.lean ====
section
/-!
DEFINITION. The fixed parameters of the format (00_scope.md R6: "None of them is configurable").

The open parameters `MAX_ELEMS`, `T_STEP` and `N_INST` (00_scope.md R8, 60_exceptions.md R212,
70_reset_and_hazards.md R232) are read by no rule and have no constant here: texts and buffers are
unbounded lists, the model is untimed, and there is one `ENC` and one `DEC`
(DESIGN CHOICE, notes/assumptions/10.md). The spec leaves no value open, so there is no opaque
constant either (42_transactions_and_laws.md R180).
-/

namespace Sys2Proof.Config

/-- `NONET_W`: bits in a nonet. -/
abbrev nonetW : Nat := 9
/-- `FLAG_W`: flag bits in a nonet. -/
abbrev flagW : Nat := 1
/-- `DATA_W`: data bits in a nonet. -/
abbrev dataW : Nat := 8
/-- `BYTE_W`: bits in a byte of the packed buffer. -/
abbrev byteW : Nat := 8
/-- `RUN_MIN`: fewest nonets in one UTF-8 run. -/
abbrev runMin : Nat := 1
/-- `RUN_MAX`: most nonets in one UTF-8 run, and the capacity of `D.ACC` (10_state.md R30). -/
abbrev runMax : Nat := 4
/-- `PAD_MAX`: most padding bits a valid buffer ends with. -/
abbrev padMax : Nat := 7
/-- `CP_W`: width of a character on the text-side ports. -/
abbrev cpW : Nat := 21

end Sys2Proof.Config
end

