-- ==== Sys2Proof/Word.lean ====
section
/-!
DEFINITION. The word types of the codec (00_scope.md R6, R9, R10).
-/

namespace Sys2Proof

/-- One byte of a packed buffer, or one byte of a UTF-8 form (00_scope.md R6: `BYTE_W`, `DATA_W`). -/
abbrev Byte := BitVec 8

/-- A nonet: flag bit above eight data bits (30_encoding.md R70). -/
abbrev Nonet := BitVec 9

/-- A character as a text-side port carries it: `CP_W` bits, unsigned (00_scope.md R6).
Not every value is a scalar value (00_scope.md R11). -/
abbrev CodePoint := BitVec 21

/-- A word at the encoder's command port, or of the decoder's output stream: 22 bits
(30_encoding.md R80, R85). -/
abbrev Word22 := BitVec 22

/-- A word at the decoder's command port, or of the encoder's output stream: 9 bits
(30_encoding.md R82, R84). -/
abbrev Word9 := BitVec 9

/-- The five bits of a `CAUSE` register: `KIND` in 1:0, `SUB` in 4:2 (10_state.md R26). -/
abbrev CauseBits := BitVec 5

end Sys2Proof
end

