-- ==== Sys2Proof/Syntax.lean ====
section
/-!
DEFINITION. The instructions: one constructor per row of spec/opcode_table.json (30_encoding.md
R86), the three word formats they are encoded in, and words as numbers.
-/

namespace Sys2Proof

/-- The four commands of the two ports and the two nonet kinds that `DEC` executes out of the bit
stream (30_encoding.md R86). The ignored bits of an `END` word carry nothing, so `END` has no
operand (30_encoding.md R81, R83; notes/assumptions/7.md). -/
inductive Instr where
  /-- `ENC.PUT cp`: encode one character (40_encoder.md R112). -/
  | encPut (cp : CodePoint)
  /-- `ENC.END`: pad, report, return to the reset state (40_encoder.md R116). -/
  | encEnd
  /-- `DEC.PUT b`: take one byte of the buffer (41_decoder.md R131). -/
  | decPut (b : Byte)
  /-- `DEC.END`: flush, judge the trailing group, report, return to the reset state
  (41_decoder.md R150). -/
  | decEnd
  /-- `NONET.START d`: a start nonet (41_decoder.md R135). -/
  | nonetStart (d : Byte)
  /-- `NONET.CONT d`: a continuation nonet (41_decoder.md R136). -/
  | nonetCont (d : Byte)
deriving DecidableEq, Repr

/-- The three formats an instruction word can have (30_encoding.md R70, R80, R82). -/
inductive Format where
  | encCmd
  | decCmd
  | nonet
deriving DecidableEq, Repr

/-- Width of a format in bits (30_encoding.md R70, R80, R82): one framing bit beside a character or
a byte, and the nonet. -/
def Format.width : Format → Nat
  | .encCmd => 1 + Config.cpW
  | .decCmd => 1 + Config.byteW
  | .nonet => Config.nonetW

/-- A word as a bare number, with the format it is to be read in. -/
structure RawWord where
  format : Format
  value : Nat
deriving DecidableEq, Repr

end Sys2Proof
end

