-- ==== Sys2Proof/WellFormed.lean ====
section
/-!
DEFINITION. What is well formed. Every word of every format selects an instruction and every
operand value is legal as a word (30_encoding.md R81, R83, R87): what can be ill formed is a number
too wide for the port or nonet it is given to. A non-scalar operand of `ENC.PUT` is a legal word
whose step raises an error (30_encoding.md R81), so it is no matter of well-formedness.
-/

namespace Sys2Proof

/-- A number is a word of its format when it fits the format's width (30_encoding.md R70, R80, R82). -/
def RawWord.wf (r : RawWord) : Bool := decide (r.value < 2 ^ r.format.width)

/-- Every instruction is well formed: the operand types hold exactly the values the fields can
carry, and no value is illegal or reserved (30_encoding.md R81, R83, R87). -/
def Instr.wf : Instr → Bool
  | .encPut _ => true
  | .encEnd => true
  | .decPut _ => true
  | .decEnd => true
  | .nonetStart _ => true
  | .nonetCont _ => true

end Sys2Proof
end

