-- ==== Sys2Proof/Decode.lean ====
section
/-!
DEFINITION. Decoding of the three formats, the encoder beside it, the rows of the opcode table with
their match and mask, and the host's view of a table word (30_encoding.md R70, R71, R80 to R83, R86,
R87).
-/

namespace Sys2Proof

/-- Why a number is not decoded: the model's names, for numbers that are no word of the spec (DESIGN
CHOICE, notes/assumptions/5.md). -/
inductive DecodeError where
  /-- The number does not fit the width of the format (no port and no nonet can carry it).
  Raised by `decode`; safe: no hardware word is refused. -/
  | wordTooWide (f : Format)
  /-- No command port has words of that many bits. Raised by `decodeTable`; safe. -/
  | noSuchPort (nbits : Nat)
deriving DecidableEq, Repr

/-- The command of a word at the encoder's port: `op` in bit 21, `cp` in bits 20:0, ignored for
`ENC.END` (30_encoding.md R80, R81). -/
def decodeEncCmd (w : Word22) : Instr :=
  if w.getLsbD 21 then .encEnd else .encPut (w.extractLsb' 0 21)

/-- The command of a word at the decoder's port: `op` in bit 8, `byte` in bits 7:0, ignored for
`DEC.END` (30_encoding.md R82, R83). -/
def decodeDecCmd (w : Word9) : Instr :=
  if w.getLsbD 8 then .decEnd else .decPut (w.extractLsb' 0 8)

/-- The kind of a nonet, told by bit 8 alone (30_encoding.md R71; 41_decoder.md R134). -/
def decodeNonet (n : Nonet) : Instr :=
  if n.getLsbD 8 then .nonetCont (n.extractLsb' 0 8) else .nonetStart (n.extractLsb' 0 8)

/-- The instruction a number stands for in a format: every number that fits the format is a word
(30_encoding.md R87). One that does not fit is no word, and is refused by name (DESIGN CHOICE,
notes/assumptions/5.md). -/
def decode (r : RawWord) : Except DecodeError Instr :=
  if r.wf then
    match r.format with
    | .encCmd => .ok (decodeEncCmd (BitVec.ofNat 22 r.value))
    | .decCmd => .ok (decodeDecCmd (BitVec.ofNat 9 r.value))
    | .nonet => .ok (decodeNonet (BitVec.ofNat 9 r.value))
  else .error (.wordTooWide r.format)

/-- The format whose words an instruction is encoded in (30_encoding.md R71, R81, R83). -/
def Instr.format : Instr → Format
  | .encPut _ | .encEnd => .encCmd
  | .decPut _ | .decEnd => .decCmd
  | .nonetStart _ | .nonetCont _ => .nonet

/-- The word of an instruction, its framing or flag bit above the operand; the ignored bits of an
`END` word are written 0, as an assembler writes them (30_encoding.md R70, R81, R83, R88;
notes/assumptions/7.md). -/
def encode : Instr → RawWord
  | .encPut cp => ⟨.encCmd, (0#1 ++ cp).toNat⟩
  | .encEnd => ⟨.encCmd, (1#1 ++ 0#21).toNat⟩
  | .decPut b => ⟨.decCmd, (0#1 ++ b).toNat⟩
  | .decEnd => ⟨.decCmd, (1#1 ++ 0#8).toNat⟩
  | .nonetStart d => ⟨.nonet, (0#1 ++ d).toNat⟩
  | .nonetCont d => ⟨.nonet, (1#1 ++ d).toNat⟩

/-- A row of the opcode table (30_encoding.md R71, R81, R83, R86). -/
structure OpcodeRow where
  mnemonic : String
  format : Format
  matchBits : Nat
  mask : Nat
deriving DecidableEq, Repr

/-- The six rows of spec/opcode_table.json (30_encoding.md R86). -/
def opcodeRows : List OpcodeRow :=
  [ ⟨"ENC.PUT", .encCmd, 0x000000, 0x200000⟩,
    ⟨"ENC.END", .encCmd, 0x200000, 0x200000⟩,
    ⟨"DEC.PUT", .decCmd, 0x000, 0x100⟩,
    ⟨"DEC.END", .decCmd, 0x100, 0x100⟩,
    ⟨"NONET.START", .nonet, 0x000, 0x100⟩,
    ⟨"NONET.CONT", .nonet, 0x100, 0x100⟩ ]

/-- The row an instruction belongs to, by its mnemonic in the table. -/
def Instr.mnemonic : Instr → String
  | .encPut _ => "ENC.PUT"
  | .encEnd => "ENC.END"
  | .decPut _ => "DEC.PUT"
  | .decEnd => "DEC.END"
  | .nonetStart _ => "NONET.START"
  | .nonetCont _ => "NONET.CONT"

/-- A word matches a row when it is a word of the row's format and agrees with `match` under `mask`. -/
def OpcodeRow.matchesWord (row : OpcodeRow) (r : RawWord) : Bool :=
  row.format == r.format && r.wf && (r.value &&& row.mask == row.matchBits)

/-- The command port whose words take `nbits` bits in whole bytes: `DEC_CMD` words take two bytes,
`ENC_CMD` words three. A nonet is presented at no port, so the two-byte numbers are `DEC_CMD` words
(DESIGN CHOICE, notes/assumptions/5.md). -/
def tableFormat (nbits : Nat) : Option Format :=
  if nbits = 0 then none
  else if nbits ≤ 16 then some .decCmd
  else if nbits ≤ 24 then some .encCmd
  else none

/-- The instruction the host reads from the number `w` of `nbits` bits, refused by name where no
port has such words. -/
def decodeTable (nbits w : Nat) : Except DecodeError Instr :=
  match tableFormat nbits with
  | some f => decode ⟨f, w⟩
  | none => .error (.noSuchPort nbits)

/-- `decodeTable` without the reason of a refusal. -/
def decodeTableWord (nbits w : Nat) : Option Instr :=
  (decodeTable nbits w).toOption

end Sys2Proof
end

