-- ==== Sys2Proof/Machine/State.lean ====
section
/-!
DEFINITION. The state of the block: the registers of 10_state.md R21, all of them and no other, with
the host's side of the ports beside them (the pending inputs and the two token streams, which
10_state.md R39 says are not state of the block). Plain data throughout. The reset state is
10_state.md R41.
-/

namespace Sys2Proof.Machine

/-- `STATUS` of a unit, one bit: whether this transaction has failed (10_state.md R25, R33). -/
inductive Status where
  /-- 0: no error has been raised in this transaction. -/
  | run
  /-- 1: an error has been raised, and `CAUSE` names it. -/
  | fault
deriving DecidableEq, Repr

/-- The two units of the block (00_scope.md R2). -/
inductive UnitId where
  | enc
  | dec
deriving DecidableEq, Repr

/-- The error kinds (60_exceptions.md R190). -/
inductive ErrorKind where
  | invalidInputText
  | malformedStream
deriving DecidableEq, Repr

/-- The errors that can be raised, one per sub-cause (60_exceptions.md R191). -/
inductive ErrorCause where
  /-- `InvalidInputText/NOT_SCALAR` (40_encoder.md R110). -/
  | notScalar
  /-- `MalformedStream/LEADING_CONT` (41_decoder.md R146). -/
  | leadingCont
  /-- `MalformedStream/BAD_RUN` (41_decoder.md R147). -/
  | badRun
  /-- `MalformedStream/BAD_LENGTH` (41_decoder.md R148). -/
  | badLength
  /-- `MalformedStream/BAD_PAD` (41_decoder.md R149). -/
  | badPad
deriving DecidableEq, Repr

/-- A token of the encoder's output stream (30_encoding.md R84). -/
inductive EncToken where
  | byte (b : Byte)
  | done (cause : CauseBits)
deriving DecidableEq, Repr

/-- A token of the decoder's output stream (30_encoding.md R85). -/
inductive DecToken where
  | char (cp : CodePoint)
  | done (cause : CauseBits)
deriving DecidableEq, Repr

/-- What can happen at the block's inputs: a word at a command port (30_encoding.md R80, R82), or a
unit's reset input (70_reset_and_hazards.md R220). Nothing else can (60_exceptions.md R194). -/
inductive Event where
  | encCmd (w : Word22)
  | decCmd (w : Word9)
  | reset (u : UnitId)
deriving DecidableEq, Repr

/-- The registers of `ENC` (10_state.md R21, R24 to R26). -/
structure EncUnit where
  /-- `E.RES`: the bits produced but not yet emitted as a whole byte. -/
  res : BitVec 7
  /-- `E.RCNT`: how many bits of `E.RES` are valid. -/
  rcnt : BitVec 3
  /-- `E.STATUS`. -/
  status : Status
  /-- `E.CAUSE`. -/
  cause : CauseBits
deriving DecidableEq, Repr

/-- The registers of `DEC` (10_state.md R21, R29 to R34). -/
structure DecUnit where
  /-- `D.RES`: the bits received but not yet forming a whole nonet. -/
  res : BitVec 8
  /-- `D.RCNT`: how many bits of `D.RES` are valid. -/
  rcnt : BitVec 4
  /-- `D.ACC[0 .. D.ALEN-1]`, in arrival order. `D.ALEN` is the length of this list: the elements at
  or beyond `D.ALEN` hold no value and cannot be named (10_state.md R30; notes/assumptions/1.md). -/
  acc : List Byte
  /-- `D.STATUS`. -/
  status : Status
  /-- `D.CAUSE`. -/
  cause : CauseBits
deriving DecidableEq, Repr

/-- The named states of the decoder's machine, a view of `D.STATUS`, `D.ALEN` and `D.ACC` and not a
register (10_state.md R36; 41_decoder.md R138). -/
inductive DecoderState where
  | awaitingStart
  | accumulating (bytesSoFar : List Byte)
  | fault
deriving DecidableEq, Repr

/-- The block and the host's side of its ports. -/
structure State where
  /-- The encoder unit's registers. -/
  enc : EncUnit
  /-- The decoder unit's registers. -/
  dec : DecUnit
  /-- The model's own field: what the host has presented and the block has not yet taken, in arrival
  order (20_memory.md R58; notes/assumptions/2.md). -/
  pending : List Event
  /-- The model's own field: the tokens `ENC` has emitted, oldest first (20_memory.md R56;
  notes/assumptions/3.md). -/
  encOut : List EncToken
  /-- The model's own field: the tokens `DEC` has emitted, oldest first (20_memory.md R56;
  notes/assumptions/3.md). -/
  decOut : List DecToken
deriving DecidableEq, Repr

/-- There is nothing that stops this machine: an error of the spec is a state (`STATUS`, `CAUSE`) that
the transaction's `END` reports (60_exceptions.md R197, R200), an idle unit waits
(93_implementation_defined.md U9), and no command word is illegal (30_encoding.md R87). No step
raises a fault, so there is none to name (notes/assumptions/8.md; safe: nothing is stopped). -/
inductive Fault : Type
deriving DecidableEq, Repr

/-- Refusals of the model. -/
inductive Refusal where
  /-- An instruction without a meaning yet. Raised by `exec` alone; safe. No arm of this model
  raises it: every instruction has its meaning. -/
  | notModelled (mnemonic : String)
deriving DecidableEq, Repr

/-- The reset state of `ENC` (10_state.md R41). -/
def EncUnit.reset : EncUnit where
  res := 0
  rcnt := 0
  status := .run
  cause := 0

/-- The reset state of `DEC` (10_state.md R41): `D.ALEN = 0` and `D.ACC` unwritten. -/
def DecUnit.reset : DecUnit where
  res := 0
  rcnt := 0
  acc := []
  status := .run
  cause := 0

/-- The machine right after reset: both units in the reset state (10_state.md R41;
70_reset_and_hazards.md R220). That nothing is pending and that the streams are empty is the model's
choice (DESIGN CHOICE, notes/assumptions/2.md and 3.md): those lists are the host's. -/
def State.reset : State where
  enc := EncUnit.reset
  dec := DecUnit.reset
  pending := []
  encOut := []
  decOut := []

end Sys2Proof.Machine
end

