-- ==== Sys2Proof/Machine/Ops.lean ====
section
/-!
DEFINITION. The named operations over the registers, the ports and the token streams: cause codes,
`emit`, the register writes, `raise` (taking an error) and the return to the reset state, token
words, and taking an event from a port.
-/

namespace Sys2Proof.Machine

/-! ### Cause codes (60_exceptions.md R191) -/

/-- `KIND_NUMBER`: the number of an error kind; 0 is `NONE` (10_state.md R26). -/
def ErrorKind.number : ErrorKind → BitVec 2
  | .invalidInputText => 1
  | .malformedStream => 2

/-- The kind of an error (60_exceptions.md R190, R191). -/
def ErrorCause.kind : ErrorCause → ErrorKind
  | .notScalar => .invalidInputText
  | .leadingCont | .badRun | .badLength | .badPad => .malformedStream

/-- `SUB` of an error (60_exceptions.md R191). -/
def ErrorCause.sub : ErrorCause → BitVec 3
  | .notScalar => 1
  | .leadingCont => 1
  | .badRun => 2
  | .badLength => 3
  | .badPad => 4

/-- The value `raise` writes to `CAUSE`: `SUB * 4 + KIND` (60_exceptions.md R191, R197). -/
def ErrorCause.code (e : ErrorCause) : CauseBits := e.sub ++ e.kind.number

/-- `CAUSE.KIND`, bits 1:0 (10_state.md R26). -/
def causeKind (c : CauseBits) : BitVec 2 := c.extractLsb' 0 2

/-- `CAUSE.SUB`, bits 4:2 (10_state.md R26). -/
def causeSub (c : CauseBits) : BitVec 3 := c.extractLsb' 2 3

/-! ### Registers and streams -/

/-- `D.ALEN`: how many elements of `D.ACC` are valid (10_state.md R30). -/
def DecUnit.alen (u : DecUnit) : Nat := u.acc.length

/-- The named state the decoder is in: `AwaitingStart` is `D.ALEN = 0`, `Accumulating` is
`D.ALEN > 0` with the bytes so far, and `FAULT` is `D.STATUS` (10_state.md R36; 41_decoder.md
R138). -/
def DecUnit.namedState (u : DecUnit) : DecoderState :=
  match u.status with
  | .fault => .fault
  | .run => if u.alen = 0 then .awaitingStart else .accumulating u.acc

/-- `E.RES <- r ; E.RCNT <- c` (40_encoder.md R112). -/
def setEncResidue (r c : Nat) (s : State) : State :=
  { s with enc := { s.enc with res := BitVec.ofNat 7 r, rcnt := BitVec.ofNat 3 c } }

/-- `D.RES <- r ; D.RCNT <- c` (41_decoder.md R131). -/
def setDecResidue (r c : Nat) (s : State) : State :=
  { s with dec := { s.dec with res := BitVec.ofNat 8 r, rcnt := BitVec.ofNat 4 c } }

/-- `D.ACC[0 .. |a|-1] <- a ; D.ALEN <- |a|` (10_state.md R30). -/
def setAcc (a : List Byte) (s : State) : State :=
  { s with dec := { s.dec with acc := a } }

/-- `emit` on the encoder's output stream: the tokens are appended in order (20_memory.md R56). -/
def emitEnc (ts : List EncToken) (s : State) : State := { s with encOut := s.encOut ++ ts }

/-- `emit` on the decoder's output stream (20_memory.md R56). -/
def emitDec (ts : List DecToken) (s : State) : State := { s with decOut := s.decOut ++ ts }

/-! ### Taking an error, and the return from one -/

/-- `raise Kind(SUB)` in a step of unit `u`: `U.STATUS <- FAULT`, `U.CAUSE <- SUB * 4 + KIND`, and
nothing else is written; no state is saved and no control is transferred (60_exceptions.md R197).
A caller abandons the rest of its step by answering with this state. -/
def raise (u : UnitId) (e : ErrorCause) (s : State) : State :=
  match u with
  | .enc => { s with enc := { s.enc with status := .fault, cause := e.code } }
  | .dec => { s with dec := { s.dec with status := .fault, cause := e.code } }

/-- Every register of unit `u` goes to its reset state: what `END` does last, which is also the
return from an error, and what the unit's reset input does (10_state.md R40, R41;
60_exceptions.md R200; 70_reset_and_hazards.md R220). -/
def returnToReset (u : UnitId) (s : State) : State :=
  match u with
  | .enc => { s with enc := EncUnit.reset }
  | .dec => { s with dec := DecUnit.reset }

/-! ### Token words (30_encoding.md R84, R85) -/

/-- Format `ENC_OUT`: `done` in bit 8, the byte in 7:0, or 0 in 7:5 and the cause in 4:0. -/
def EncToken.word : EncToken → Word9
  | .byte b => 0#1 ++ b
  | .done c => 1#1 ++ (0#3 ++ c)

/-- Format `DEC_OUT`: `done` in bit 21, the character in 20:0, or 0 in 20:5 and the cause in 4:0. -/
def DecToken.word : DecToken → Word22
  | .char cp => 0#1 ++ cp
  | .done c => 1#1 ++ (0#16 ++ c)

/-! ### The command ports -/

/-- The next event at the block's inputs, and the state with that event consumed; none when the host
has presented nothing (20_memory.md R58, R61, R64). -/
def takeEvent (s : State) : Option (Event × State) :=
  match s.pending with
  | [] => none
  | e :: rest => some (e, { s with pending := rest })

/-- The event of the number `w` presented at the port whose words take `nbits` bits in whole bytes;
none where there is no such port or the number does not fit it (notes/assumptions/5.md). -/
def eventOfTableWord (nbits w : Nat) : Option Event :=
  match tableFormat nbits with
  | some .encCmd => if (RawWord.mk .encCmd w).wf then some (.encCmd (BitVec.ofNat 22 w)) else none
  | some .decCmd => if (RawWord.mk .decCmd w).wf then some (.decCmd (BitVec.ofNat 9 w)) else none
  | some .nonet => none
  | none => none

end Sys2Proof.Machine
end

