-- ==== Sys2Proof/Machine/Operands.lean ====
section
/-!
DEFINITION. The operand forms: a character and the check on it, and the data byte of a nonet. A
`PUT` operand is taken whole (20_memory.md R57); no operand is an address (20_memory.md R50) or
names a register (10_state.md R22).
-/

namespace Sys2Proof.Machine

/-- `is_scalar(cp)`: `cp` is a Unicode scalar value, in `0 .. 0x10FFFF` and not a surrogate
(00_scope.md R11). -/
def isScalar (cp : CodePoint) : Bool :=
  decide (cp.toNat ≤ 0x10FFFF) && !(decide (0xD800 ≤ cp.toNat) && decide (cp.toNat ≤ 0xDFFF))

/-- The data byte of a nonet, bits 7:0 (30_encoding.md R70; 41_decoder.md R134). -/
def nonetData (n : Nonet) : Byte := n.extractLsb' 0 8

end Sys2Proof.Machine
end

