-- ==== Sys2Proof/Machine/Flags.lean ====
section
/-!
DEFINITION. The flags. There is no condition code; the flag-like state is `STATUS`, and the flag bit
of a nonet is data of the stream, computed from a byte's position by the encoder and read from bit 8
by the decoder (10_state.md R37).
-/

namespace Sys2Proof.Machine

/-- The flag bit of the byte at position `idx` of a character: 1 if `idx > 0`, else 0
(40_encoder.md R103). -/
def flagOfPosition (idx : Nat) : BitVec 1 := if 0 < idx then 1 else 0

/-- Stage 2 of the encoder, `mknonet(idx, b)`: the flag of the position above the byte unchanged
(40_encoder.md R103). -/
def mknonet (idx : Nat) (b : Byte) : Nonet := flagOfPosition idx ++ b

/-- The flag bit of a nonet, bit 8 (30_encoding.md R70; 41_decoder.md R134). -/
def nonetFlag (n : Nonet) : Bool := n.getLsbD 8

end Sys2Proof.Machine
end

