-- ==== Sys2Proof/Machine/Utf8.lean ====
section
/-!
DEFINITION. UTF-8: stage 1 of the encoder (40_encoder.md R101), the reassembly of one character in
the decoder (41_decoder.md R140), and the table of well-formed sequences (30_encoding.md R73).
-/

namespace Sys2Proof.Machine

/-- `utf8(cp)`, defined by the spec for a scalar `cp` (40_encoder.md R101). The encoder applies it
to nothing else (40_encoder.md R110). -/
def utf8 (cp : CodePoint) : List Byte :=
  let c := cp.toNat
  if c ≤ 0x7F then [BitVec.ofNat 8 c]
  else if c ≤ 0x7FF then
    [BitVec.ofNat 8 (0xC0 + c / 64), BitVec.ofNat 8 (0x80 + c % 64)]
  else if c ≤ 0xFFFF then
    [BitVec.ofNat 8 (0xE0 + c / 4096), BitVec.ofNat 8 (0x80 + c / 64 % 64),
      BitVec.ofNat 8 (0x80 + c % 64)]
  else
    [BitVec.ofNat 8 (0xF0 + c / 262144), BitVec.ofNat 8 (0x80 + c / 4096 % 64),
      BitVec.ofNat 8 (0x80 + c / 64 % 64), BitVec.ofNat 8 (0x80 + c % 64)]

/-- `utf8_len(cp)` (40_encoder.md R101). -/
def utf8Len (cp : CodePoint) : Nat := (utf8 cp).length

/-- `cont(b)`: the byte is in `0x80 .. 0xBF` (41_decoder.md R140). -/
def isContByte (b : Byte) : Bool := decide (0x80 ≤ b.toNat) && decide (b.toNat ≤ 0xBF)

/-- The scalar value a candidate number is, when it lies in the range its length allows. -/
def guardCp (ok : Bool) (cp : Nat) : Option CodePoint :=
  if ok then some (BitVec.ofNat 21 cp) else none

/-- `utf8_decode_one(bs)`: the scalar value whose UTF-8 form is exactly `bs`, or none: one whole
character, shortest form, no surrogate, at most `U+10FFFF` (41_decoder.md R140). -/
def utf8DecodeOne : List Byte → Option CodePoint
  | [b0] => guardCp (decide (b0.toNat ≤ 0x7F)) b0.toNat
  | [b0, b1] =>
    let cp := b0.toNat % 32 * 64 + b1.toNat % 64
    guardCp (decide (0xC0 ≤ b0.toNat) && decide (b0.toNat ≤ 0xDF) && isContByte b1
      && decide (0x80 ≤ cp)) cp
  | [b0, b1, b2] =>
    let cp := b0.toNat % 16 * 4096 + b1.toNat % 64 * 64 + b2.toNat % 64
    guardCp (decide (0xE0 ≤ b0.toNat) && decide (b0.toNat ≤ 0xEF) && isContByte b1
      && isContByte b2 && decide (0x800 ≤ cp)
      && !(decide (0xD800 ≤ cp) && decide (cp ≤ 0xDFFF))) cp
  | [b0, b1, b2, b3] =>
    let cp := b0.toNat % 8 * 262144 + b1.toNat % 64 * 4096 + b2.toNat % 64 * 64 + b3.toNat % 64
    guardCp (decide (0xF0 ≤ b0.toNat) && decide (b0.toNat ≤ 0xF7) && isContByte b1
      && isContByte b2 && isContByte b3 && decide (0x10000 ≤ cp) && decide (cp ≤ 0x10FFFF)) cp
  | _ => none

/-- The byte lies in the range `lo .. hi`. -/
def inRange (lo hi : Nat) (b : Byte) : Bool := decide (lo ≤ b.toNat) && decide (b.toNat ≤ hi)

/-- The ranges of one row of the table of well-formed sequences, one pair per byte. -/
def matchesRanges : List (Nat × Nat) → List Byte → Bool
  | [], [] => true
  | (lo, hi) :: rs, b :: bs => inRange lo hi b && matchesRanges rs bs
  | _, _ => false

/-- The second table of 30_encoding.md R73, row by row. -/
def utf8Table : List (List (Nat × Nat)) :=
  [ [(0x00, 0x7F)],
    [(0xC2, 0xDF), (0x80, 0xBF)],
    [(0xE0, 0xE0), (0xA0, 0xBF), (0x80, 0xBF)],
    [(0xE1, 0xEC), (0x80, 0xBF), (0x80, 0xBF)],
    [(0xED, 0xED), (0x80, 0x9F), (0x80, 0xBF)],
    [(0xEE, 0xEF), (0x80, 0xBF), (0x80, 0xBF)],
    [(0xF0, 0xF0), (0x90, 0xBF), (0x80, 0xBF), (0x80, 0xBF)],
    [(0xF1, 0xF3), (0x80, 0xBF), (0x80, 0xBF), (0x80, 0xBF)],
    [(0xF4, 0xF4), (0x80, 0x8F), (0x80, 0xBF), (0x80, 0xBF)] ]

/-- The byte sequence is well formed for one character: it matches a row of the second table of
30_encoding.md R73. -/
def wellFormedUtf8 (bs : List Byte) : Bool := utf8Table.any (fun row => matchesRanges row bs)

end Sys2Proof.Machine
end

