-- ==== Sys2Proof/Machine/Packing.lean ====
section
/-!
DEFINITION. Stage 3 of the encoder, `pack_step`, and the decoder's `unpack_step`: the residue and
the element behind it are one number, cut most significant bit first (40_encoder.md R105;
41_decoder.md R132). The arithmetic is exact on natural numbers and narrowed at the end; no value
overflows its width (40_encoder.md R108; 41_decoder.md R160).
-/

namespace Sys2Proof.Machine

/-- What packing produces: the bytes emitted, in order, and the new residue. -/
structure Packed where
  bytes : List Byte
  res : Nat
  cnt : Nat
deriving DecidableEq, Repr

/-- `pack_step(r, c, n)`: one nonet behind a residue of `c` bits with value `r`. It emits the first
eight of the `c + 9` bits, and the rest too when they are a whole byte (40_encoder.md R105). -/
def packStep (r c : Nat) (n : Nonet) : Packed :=
  let w := r * 512 + n.toNat
  let c2 := c + 9 - 8
  let first := BitVec.ofNat 8 (w / 2 ^ c2)
  let w2 := w % 2 ^ c2
  if c2 = 8 then ⟨[first, BitVec.ofNat 8 w2], 0, 0⟩ else ⟨[first], w2, c2⟩

/-- `pack_step` over a sequence of nonets, in order: the loop of `ENC.PUT` (40_encoder.md R112). -/
def packNonets (r c : Nat) : List Nonet → Packed
  | [] => ⟨[], r, c⟩
  | n :: ns =>
    let p := packStep r c n
    let q := packNonets p.res p.cnt ns
    ⟨p.bytes ++ q.bytes, q.res, q.cnt⟩

/-- Stage 2 over one character: the nonets of its UTF-8 bytes, the position counted from 0
(40_encoder.md R103, R104). -/
def charNonets (cp : CodePoint) : List Nonet := (utf8 cp).mapIdx mknonet

/-- The padding byte of `ENC.END`: the residue in the high-order bits, zeros below; none for an
empty residue (40_encoder.md R116). -/
def paddingBytes (r c : Nat) : List Byte :=
  if 0 < c then [BitVec.ofNat 8 (r * 2 ^ (8 - c))] else []

/-- What unpacking produces: the nonet completed, if any, and the new residue. -/
structure Unpacked where
  nonet : Option Nonet
  res : Nat
  cnt : Nat
deriving DecidableEq, Repr

/-- `unpack_step(r, c, b)`: one byte behind a residue of `c` bits with value `r`. The first nine of
the `c + 8` bits are a nonet when there are nine (41_decoder.md R132). -/
def unpackStep (r c : Nat) (b : Byte) : Unpacked :=
  let w := r * 256 + b.toNat
  let c1 := c + 8
  if 9 ≤ c1 then
    let c' := c1 - 9
    ⟨some (BitVec.ofNat 9 (w / 2 ^ c')), w % 2 ^ c', c'⟩
  else ⟨none, w, c1⟩

end Sys2Proof.Machine
end

