-- ==== Sys2Proof/Machine/Nonets.lean ====
section
/-!
DEFINITION. The nonet state machine: the two nonet kinds that `DEC` executes out of the bit stream
(41_decoder.md R134 to R138), and `flush` (R141).
-/

namespace Sys2Proof.Machine

/-- `flush`, followed by the rest of the step: the accumulator's bytes are emitted as one character
and `rest` goes on, or `BAD_RUN` is raised and `rest` is abandoned (41_decoder.md R141;
60_exceptions.md R197). -/
def flushThen (rest : State → State) (s : State) : State :=
  match utf8DecodeOne s.dec.acc with
  | some cp => rest (emitDec [.char cp] s)
  | none => raise .dec .badRun s

/-- `if D.ALEN > 0 then flush`, followed by the rest of the step (41_decoder.md R135, R150). -/
def flushIfAny (rest : State → State) (s : State) : State :=
  if 0 < s.dec.alen then flushThen rest s else rest s

/-- `NONET.START d`: the run before it, if there is one, is flushed, and a new run begins with `d`
(41_decoder.md R135). -/
def execNonetStart (d : Byte) (s : State) : Host.Outcome State Fault Refusal :=
  .next (flushIfAny (setAcc [d]) s)

/-- `NONET.CONT d`: `LEADING_CONT` with an empty accumulator, `BAD_RUN` with a full one, else `d` is
appended (41_decoder.md R136, R137, R146). -/
def execNonetCont (d : Byte) (s : State) : Host.Outcome State Fault Refusal :=
  if s.dec.alen = 0 then .next (raise .dec .leadingCont s)
  else if s.dec.alen = Config.runMax then .next (raise .dec .badRun s)
  else .next (setAcc (s.dec.acc ++ [d]) s)

/-- Executing a nonet: bit 8 chooses the kind, bits 7:0 are the operand (41_decoder.md R134). -/
def executeNonet (n : Nonet) (s : State) : Host.Outcome State Fault Refusal :=
  if nonetFlag n then execNonetCont (nonetData n) s else execNonetStart (nonetData n) s

end Sys2Proof.Machine
end

