-- ==== Sys2Proof/Machine/Decoder.lean ====
section
/-!
DEFINITION. The decoder's two commands (41_decoder.md R130, R131, R148 to R152).
-/

namespace Sys2Proof.Machine

/-- `DEC.PUT b`: nothing in `FAULT`; else the residue is advanced, and kept even if the nonet that
the byte completes raises; then that nonet, if there is one, is executed (41_decoder.md R130,
R131). -/
def execDecPut (b : Byte) (s : State) : Host.Outcome State Fault Refusal :=
  match s.dec.status with
  | .fault => .next s
  | .run =>
    let u := unpackStep s.dec.res.toNat s.dec.rcnt.toNat b
    let s1 := setDecResidue u.res u.cnt s
    match u.nonet with
    | some n => executeNonet n s1
    | none => .next s1

/-- The last two checks of `DEC.END`, on the trailing group: eight bits, then one to seven bits not
all zero (41_decoder.md R148, R149, R150). -/
def checkTrailing (s : State) : State :=
  if s.dec.rcnt = 8 then raise .dec .badLength s
  else if 1 ≤ s.dec.rcnt.toNat ∧ s.dec.res ≠ 0 then raise .dec .badPad s
  else s

/-- `checks` of `DEC.END`: the last run is flushed, then the trailing group is judged; an error
abandons the rest (41_decoder.md R150, R152). -/
def decEndChecks (s : State) : State := flushIfAny checkTrailing s

/-- `report` of `DEC.END`: `DONE(D.CAUSE)`, then the reset state (41_decoder.md R150). -/
def decEndReport (s : State) : State := returnToReset .dec (emitDec [.done s.dec.cause] s)

/-- `DEC.END`: the checks, made in `RUN` only, and the report (41_decoder.md R150, R151). -/
def execDecEnd (s : State) : Host.Outcome State Fault Refusal :=
  match s.dec.status with
  | .run => .next (decEndReport (decEndChecks s))
  | .fault => .next (decEndReport s)

end Sys2Proof.Machine
end

