-- ==== Sys2Proof/Machine/Encoder.lean ====
section
/-!
DEFINITION. The encoder's two commands (40_encoder.md R110 to R117).
-/

namespace Sys2Proof.Machine

/-- `ENC.PUT cp`: nothing in `FAULT`; an error for an operand that is no scalar value; else the
nonets of the character are packed behind the residue (40_encoder.md R110, R111, R112). -/
def execEncPut (cp : CodePoint) (s : State) : Host.Outcome State Fault Refusal :=
  match s.enc.status with
  | .fault => .next s
  | .run =>
    if isScalar cp then
      let p := packNonets s.enc.res.toNat s.enc.rcnt.toNat (charNonets cp)
      .next (setEncResidue p.res p.cnt (emitEnc (p.bytes.map .byte) s))
    else .next (raise .enc .notScalar s)

/-- The tokens `ENC.END` emits: in `RUN` the padding byte, if one is due, and `DONE(0)`; in `FAULT`
the one token `DONE(E.CAUSE)` (40_encoder.md R116, R117). -/
def encEndTokens (u : EncUnit) : List EncToken :=
  match u.status with
  | .run => (paddingBytes u.res.toNat u.rcnt.toNat).map .byte ++ [.done 0]
  | .fault => [.done u.cause]

/-- `ENC.END`: pad, report, return to the reset state (40_encoder.md R116, R117). -/
def execEncEnd (s : State) : Host.Outcome State Fault Refusal :=
  .next (returnToReset .enc (emitEnc (encEndTokens s.enc) s))

end Sys2Proof.Machine
end

