-- ==== Sys2Proof/Machine/Dispatch.lean ====
section
/-!
DEFINITION. One arm per instruction (30_encoding.md R86).
-/

namespace Sys2Proof.Machine

def exec (i : Instr) (s : State) : Host.Outcome State Fault Refusal :=
  match i with
  | .encPut cp => Sys2Proof.Machine.execEncPut cp s
  | .encEnd => Sys2Proof.Machine.execEncEnd s
  | .decPut b => Sys2Proof.Machine.execDecPut b s
  | .decEnd => Sys2Proof.Machine.execDecEnd s
  | .nonetStart d => Sys2Proof.Machine.execNonetStart d s
  | .nonetCont d => Sys2Proof.Machine.execNonetCont d s

end Sys2Proof.Machine
end

