-- ==== Sys2Proof/Machine/Step.lean ====
section
/-!
DEFINITION. One step of the block: the whole effect of one event at its inputs (00_scope.md R7;
20_memory.md R58). The step is taken by `takeEvent`, the decoders and `exec`.
-/

namespace Sys2Proof.Machine

/-- One step: the next event is consumed; a command word is decoded and its instruction executed, a
reset input puts its unit in the reset state and emits nothing (70_reset_and_hazards.md R220). With
nothing presented the block is idle and holds its registers (60_exceptions.md R211;
93_implementation_defined.md U9; notes/assumptions/4.md). -/
def step (s : State) : Host.Outcome State Fault Refusal :=
  match takeEvent s with
  | none => .next s
  | some (.encCmd w, s') => exec (decodeEncCmd w) s'
  | some (.decCmd w, s') => exec (decodeDecCmd w) s'
  | some (.reset u, s') => .next (returnToReset u s')

/-- The word `w` of `nbits` bits presented first at the command port whose words it fits, so that
the next step takes it (notes/assumptions/2.md, notes/assumptions/5.md). A number that fits no
port changes nothing. -/
def State.withFetchWord (s : State) (nbits w : Nat) : State :=
  match eventOfTableWord nbits w with
  | some e => { s with pending := e :: s.pending }
  | none => s

end Sys2Proof.Machine
end

