-- ==== Sys2Proof/Machine/Wire.lean ====
section
/-!
DEFINITION. The wire format over whole values: the bit stream of a nonet sequence, its packing into
bytes and back, the grouping into nonets, the runs, and the lengths (20_memory.md R51 to R55, R65;
40_encoder.md R104; 30_encoding.md R74). The units never hold a whole stream; these functions are
what their steps are required to compose to (00_scope.md R7).
-/

namespace Sys2Proof.Machine

/-- The `w` low bits of `v`, most significant first (00_scope.md R10; 20_memory.md R53). -/
def msbBits : Nat → Nat → List Bool
  | 0, _ => []
  | w + 1, v => v.testBit w :: msbBits w v

/-- The number whose bits, most significant first, are the list (20_memory.md R53). -/
def msbValue : List Bool → Nat
  | [] => 0
  | b :: bs => b.toNat * 2 ^ bs.length + msbValue bs

/-- The eight stream bits of a byte (20_memory.md R55). -/
def byteBits (b : Byte) : List Bool := msbBits 8 b.toNat

/-- The nine stream bits of a nonet, flag first (20_memory.md R52). -/
def nonetBits (n : Nonet) : List Bool := msbBits 9 n.toNat

/-- The bit string that `E.RES` and `E.RCNT` hold (10_state.md R24). -/
def EncUnit.residueBits (u : EncUnit) : List Bool := msbBits u.rcnt.toNat u.res.toNat

/-- The bit string that `D.RES` and `D.RCNT` hold (10_state.md R29). -/
def DecUnit.residueBits (u : DecUnit) : List Bool := msbBits u.rcnt.toNat u.res.toNat

/-- `bits(N)`: the bit stream of a nonet sequence (20_memory.md R52). -/
def bitsOf (ns : List Nonet) : List Bool := ns.flatMap nonetBits

/-- The first `k` bits of a stream, filled with zeros where the stream is shorter. -/
def takePadded (k : Nat) (s : List Bool) : List Bool := (s ++ List.replicate k false).take k

/-- `pack(s)`: byte `j` holds the stream bits from `8j` on, the last byte zero padded
(20_memory.md R54). -/
def pack (s : List Bool) : List Byte :=
  (List.range ((s.length + 7) / 8)).map fun j =>
    BitVec.ofNat 8 (msbValue (takePadded 8 (s.drop (8 * j))))

/-- `unpack(B)`: the bit stream of a buffer (20_memory.md R55). -/
def unpack (B : List Byte) : List Bool := B.flatMap byteBits

/-- The complete nonets of a bit stream: nonet `k` is the nine bits from `9k` on (20_memory.md R55). -/
def completeNonets (s : List Bool) : List Nonet :=
  (List.range (s.length / 9)).map fun k => BitVec.ofNat 9 (msbValue ((s.drop (9 * k)).take 9))

/-- The trailing group: the bits after the last complete nonet (20_memory.md R55). -/
def trailingGroup (s : List Bool) : List Bool := s.drop (9 * (s.length / 9))

/-- `nonets(T)`: the nonet sequence of a text (40_encoder.md R104). -/
def textNonets (T : List CodePoint) : List Nonet := T.flatMap charNonets

/-- The data bytes of a nonet sequence cut at its start nonets: the data bytes of the continuation
nonets before the first start nonet, and the runs (30_encoding.md R74; 41_decoder.md R147). -/
def splitRuns : List Nonet → List Byte × List (List Byte)
  | [] => ([], [])
  | n :: ns =>
    let p := splitRuns ns
    if nonetFlag n then (nonetData n :: p.1, p.2) else ([], (nonetData n :: p.1) :: p.2)

/-- `L(n)`: the bytes of the buffer of `n` nonets (20_memory.md R65). -/
def bufferLength (n : Nat) : Nat := (9 * n + 7) / 8

/-- `p(n)`: the padding bits of the buffer of `n` nonets (20_memory.md R65). -/
def paddingLength (n : Nat) : Nat := 8 * bufferLength n - 9 * n

end Sys2Proof.Machine
end

