-- ==== Sys2Proof/Machine/Transactions.lean ====
section
/-!
DEFINITION. Whole calls: the pseudo-instructions `ENCODE` and `DECODE` as command sequences, the
result read off a transaction's tokens, and `encode` and `decode` as what the machine's steps give
(30_encoding.md R89; 42_transactions_and_laws.md R170, R171, R173, R175).
-/

namespace Sys2Proof.Machine

/-! ### Command sequences -/

/-- `ENCODE c_0, …`: one `ENC.PUT` per character, then `ENC.END` (30_encoding.md R89). -/
def encodeProgram (T : List CodePoint) : List Instr := T.map .encPut ++ [.encEnd]

/-- `DECODE b_0 …`: one `DEC.PUT` per byte, then `DEC.END` (30_encoding.md R89). -/
def decodeProgram (B : List Byte) : List Instr := B.map .decPut ++ [.decEnd]

/-- The event that presents an instruction's word at its command port; a nonet is presented at none
(30_encoding.md R80, R82, R86). -/
def presented (i : Instr) : Option Event :=
  match (encode i).format with
  | .encCmd => some (.encCmd (BitVec.ofNat 22 (encode i).value))
  | .decCmd => some (.decCmd (BitVec.ofNat 9 (encode i).value))
  | .nonet => none

/-- The events of an encoder transaction over the text `T`. -/
def encodeEvents (T : List CodePoint) : List Event := (encodeProgram T).filterMap presented

/-- The events of a decoder transaction over the buffer `B`. -/
def decodeEvents (B : List Byte) : List Event := (decodeProgram B).filterMap presented

/-- The machine run over a finite sequence of events, from the registers and streams of `s`
(20_memory.md R58). -/
def runEvents (evs : List Event) (s : State) : Host.Outcome State Fault Refusal :=
  Host.Core.run Sys2Proof.core evs.length { s with pending := evs }

/-- The unit an event is for. -/
def Event.unit : Event → UnitId
  | .encCmd _ => .enc
  | .decCmd _ => .dec
  | .reset u => u

/-! ### Results (42_transactions_and_laws.md R171) -/

/-- The result of a transaction: a value, or the kind and sub-cause of the error. -/
inductive Result (α : Type) where
  | ok (v : List α)
  | err (kind : BitVec 2) (sub : BitVec 3)
deriving DecidableEq, Repr

/-- The operand of a `BYTE` token. -/
def EncToken.byte? : EncToken → Option Byte
  | .byte b => some b
  | .done _ => none

/-- The operand of a `CHAR` token. -/
def DecToken.char? : DecToken → Option CodePoint
  | .char cp => some cp
  | .done _ => none

/-- The result that a closed transaction's last token decides: `OK` of the operands emitted, or the
error of the cause, of which those operands are no part (42_transactions_and_laws.md R171). -/
def resultOf {α : Type} (cause : CauseBits) (vs : List α) : Result α :=
  if cause = 0 then .ok vs else .err (causeKind cause) (causeSub cause)

/-- The result of an encoder transaction, read off its tokens; none until `DONE` is emitted
(42_transactions_and_laws.md R171, R175). -/
def encResult (ts : List EncToken) : Option (Result Byte) :=
  match ts.getLast? with
  | some (.done c) => some (resultOf c (ts.filterMap EncToken.byte?))
  | _ => none

/-- The result of a decoder transaction, read off its tokens (42_transactions_and_laws.md R171). -/
def decResult (ts : List DecToken) : Option (Result CodePoint) :=
  match ts.getLast? with
  | some (.done c) => some (resultOf c (ts.filterMap DecToken.char?))
  | _ => none

/-- The results of the closed transactions of an encoder token stream, in order: each `DONE` closes
one. `vs` holds the operands since the last `DONE` (42_transactions_and_laws.md R175). -/
def encResultsFrom (vs : List Byte) : List EncToken → List (Result Byte)
  | [] => []
  | .byte b :: ts => encResultsFrom (vs ++ [b]) ts
  | .done c :: ts => resultOf c vs :: encResultsFrom [] ts

/-- The results of the closed transactions of a decoder token stream. -/
def decResultsFrom (vs : List CodePoint) : List DecToken → List (Result CodePoint)
  | [] => []
  | .char cp :: ts => decResultsFrom (vs ++ [cp]) ts
  | .done c :: ts => resultOf c vs :: decResultsFrom [] ts

/-! ### `encode` and `decode` (42_transactions_and_laws.md R170, R173) -/

/-- The result of the transaction `ENCODE T` run on the machine from `s`: the tokens are those
`ENC` emits after `s`. -/
def encodeFrom (s : State) (T : List CodePoint) : Option (Result Byte) :=
  match runEvents (encodeEvents T) s with
  | .next t => encResult (t.encOut.drop s.encOut.length)
  | .fault _ => none
  | .refused _ => none

/-- The result of the transaction `DECODE B` run on the machine from `s`. -/
def decodeFrom (s : State) (B : List Byte) : Option (Result CodePoint) :=
  match runEvents (decodeEvents B) s with
  | .next t => decResult (t.decOut.drop s.decOut.length)
  | .fault _ => none
  | .refused _ => none

/-- `encode(T)` (42_transactions_and_laws.md R170). -/
def encodeText (T : List CodePoint) : Option (Result Byte) := encodeFrom State.reset T

/-- `decode(B)` (42_transactions_and_laws.md R173). -/
def decodeBuffer (B : List Byte) : Option (Result CodePoint) := decodeFrom State.reset B

end Sys2Proof.Machine
end

