-- ==== Sys2Proof/Safety.lean ====
section
/-!
DEFINITION. What a safe state is: the invariants the spec gives the two units (10_state.md R28, R35),
and what the token streams may hold (30_encoding.md R84, R85).
-/

namespace Sys2Proof.Safety

open Sys2Proof.Machine

/-- The encoder's invariant: the residue fits its length, `STATUS` is `RUN` exactly when `CAUSE` is 0,
and the only cause recorded is `NOT_SCALAR` (10_state.md R26, R28 (a), (b), (d)). -/
def EncInv (u : EncUnit) : Prop :=
  u.res.toNat < 2 ^ u.rcnt.toNat ∧
  (u.status = .run ↔ u.cause = 0) ∧
  (u.status = .fault → u.cause = ErrorCause.notScalar.code)

/-- The decoder's invariant: the residue fits its length and the length is at most 8, the accumulator
holds at most 4 bytes, `STATUS` is `RUN` exactly when `CAUSE` is 0, the causes that outlive a step
are those of a nonet, and while no byte is held no nonet has been executed, so that the residue is
empty or one whole byte (10_state.md R34, R35 (a), (b), (d), (e), (f)). -/
def DecInv (u : DecUnit) : Prop :=
  u.res.toNat < 2 ^ u.rcnt.toNat ∧
  u.rcnt.toNat ≤ 8 ∧
  u.alen ≤ Config.runMax ∧
  (u.status = .run ↔ u.cause = 0) ∧
  (u.status = .fault →
    u.cause = ErrorCause.leadingCont.code ∨ u.cause = ErrorCause.badRun.code) ∧
  (u.status = .run → u.alen = 0 → u.rcnt = 0 ∨ u.rcnt = 8)

/-- The causes a `DONE` token of the encoder carries: none, or `NOT_SCALAR` (30_encoding.md R84). -/
def EncTokenOk : EncToken → Prop
  | .byte _ => True
  | .done c => c = 0 ∨ c = ErrorCause.notScalar.code

/-- A `CHAR` token carries a scalar value, and a `DONE` token of the decoder carries no cause or one
of the four of `MalformedStream` (30_encoding.md R85; 41_decoder.md R141). -/
def DecTokenOk : DecToken → Prop
  | .char cp => isScalar cp = true
  | .done c => c = 0 ∨ c = ErrorCause.leadingCont.code ∨ c = ErrorCause.badRun.code ∨
      c = ErrorCause.badLength.code ∨ c = ErrorCause.badPad.code

/-- The invariant of the machine. -/
def Inv (s : State) : Prop :=
  EncInv s.enc ∧ DecInv s.dec ∧
  (∀ t ∈ s.encOut, EncTokenOk t) ∧ (∀ t ∈ s.decOut, DecTokenOk t)

end Sys2Proof.Safety
end

