-- ==== Sys2Proof/Certificates/Slice0/Obligations.lean ====
section
/-!
DEFINITION. The statements for the provers. Each docstring names the rule of spec/ it formalises.
There is no memory in this hardware (20_memory.md R50), so the frame of an instruction is the
registers, the pending events and the two token streams; a next state written `{ s with … }` says
that everything it does not name is unchanged.
-/

open Sys2Proof Sys2Proof.Machine Sys2Proof.Safety

/-! ### Encoding (30_encoding.md) -/

/-- 30_encoding.md R70, R80 to R83: decoding the word an instruction is encoded in gives back the
instruction, with every operand at every value, and that word fits its format. -/
def Obligations.EncodedInstructionDecodesToItself : Prop :=
  ∀ i : Instr, decode (encode i) = .ok i ∧ (encode i).wf = true ∧ (encode i).format = i.format

/-- 30_encoding.md R70, R81, R83, R87: every number that fits a format is a word of it and selects an
instruction of that format, and encoding that instruction gives the word back. An `END` word is the
exception: its ignored bits come back 0, as an assembler writes them (R81 for `ENC.END`; R88, which
gives the word `0x100`, for `DEC.END`; notes/assumptions/7.md). The last clause is the model's choice
and no rule of the spec: a number of `2 ^ width` or more, which no word of the format is, is refused by
the name `wordTooWide` (DESIGN CHOICE, notes/assumptions/5.md). -/
def Obligations.EveryWordSelectsAnInstruction : Prop :=
  ∀ (f : Format) (v : Nat),
    (v < 2 ^ f.width →
      ∃ i : Instr, decode ⟨f, v⟩ = .ok i ∧ i.format = f ∧
        (i ≠ .encEnd → i ≠ .decEnd → encode i = ⟨f, v⟩) ∧
        (i = .encEnd → (encode i).value = v &&& 0x200000) ∧
        (i = .decEnd → (encode i).value = v &&& 0x100)) ∧
    (2 ^ f.width ≤ v → decode ⟨f, v⟩ = .error (.wordTooWide f))

/-- 30_encoding.md R71, R81, R83: the decoder agrees with the match and mask columns of the opcode
table: a word decodes to an instruction of a row exactly when it matches that row. -/
def Obligations.DecoderAgreesWithOpcodeTable : Prop :=
  ∀ (r : RawWord) (i : Instr) (row : OpcodeRow), decode r = .ok i → row ∈ opcodeRows →
    (row.matchesWord r = true ↔ row.mnemonic = i.mnemonic)

/-- 30_encoding.md R71, R81, R83; 95_test_vectors.md table J: words written out from the formats
decode to the instructions they stand for, one at least of each row of the opcode table. -/
def Obligations.WrittenWordsDecode : Prop :=
  decode ⟨.encCmd, 0x01F600⟩ = .ok (.encPut 0x1F600) ∧
  decode ⟨.encCmd, 0x1FFFFF⟩ = .ok (.encPut 0x1FFFFF) ∧
  decode ⟨.encCmd, 0x200000⟩ = .ok .encEnd ∧
  decode ⟨.encCmd, 0x3FFFFF⟩ = .ok .encEnd ∧
  decode ⟨.decCmd, 0x020⟩ = .ok (.decPut 0x20) ∧
  decode ⟨.decCmd, 0x0FF⟩ = .ok (.decPut 0xFF) ∧
  decode ⟨.decCmd, 0x100⟩ = .ok .decEnd ∧
  decode ⟨.decCmd, 0x1FF⟩ = .ok .decEnd ∧
  decode ⟨.nonet, 0x041⟩ = .ok (.nonetStart 0x41) ∧
  decode ⟨.nonet, 0x1A9⟩ = .ok (.nonetCont 0xA9)

/-- 30_encoding.md R84, R85: the words of the tokens: bit 8 (`ENC_OUT`) or bit 21 (`DEC_OUT`) is
`done`, the data or the cause lies below it, the bits between are 0; and two tokens with one word are
one token. -/
def Obligations.TokenWordsFollowTheFormats : Prop :=
  (∀ b : Byte, (EncToken.byte b).word.toNat = b.toNat) ∧
  (∀ c : CauseBits, (EncToken.done c).word.toNat = 0x100 + c.toNat) ∧
  (∀ cp : CodePoint, (DecToken.char cp).word.toNat = cp.toNat) ∧
  (∀ c : CauseBits, (DecToken.done c).word.toNat = 0x200000 + c.toNat) ∧
  (∀ a b : EncToken, a.word = b.word → a = b) ∧
  (∀ a b : DecToken, a.word = b.word → a = b)

/-! ### A step -/

/-- 20_memory.md R58, R64; 00_scope.md R7: a step takes the first event presented. Where it is a word
at a command port that decodes to an instruction, the step is `exec` of that instruction at the state
with the event consumed, and nothing else is added around it. -/
def Obligations.StepRunsTheDecodedCommand : Prop :=
  ∀ (s : State) (rest : List Event) (i : Instr),
    (∀ w : Word22, s.pending = .encCmd w :: rest → decode ⟨.encCmd, w.toNat⟩ = .ok i →
      step s = exec i { s with pending := rest }) ∧
    (∀ w : Word9, s.pending = .decCmd w :: rest → decode ⟨.decCmd, w.toNat⟩ = .ok i →
      step s = exec i { s with pending := rest })

/-- 70_reset_and_hazards.md R220, R221: the reset input of a unit, at any time, puts every register
of that unit in its reset state, emits no token and does not touch the other unit. -/
def Obligations.ResetInputResetsOneUnit : Prop :=
  ∀ (s : State) (rest : List Event),
    (s.pending = .reset .enc :: rest →
      step s = .next { s with
        enc := { res := 0, rcnt := 0, status := .run, cause := 0 }, pending := rest }) ∧
    (s.pending = .reset .dec :: rest →
      step s = .next { s with
        dec := { res := 0, rcnt := 0, acc := [], status := .run, cause := 0 }, pending := rest })

/-- The model's choice, notes/assumptions/4.md, after 60_exceptions.md R211 and
93_implementation_defined.md U9: with nothing presented a step leaves everything as it is, and any
event presented later is taken. -/
def Obligations.IdleBlockHoldsItsRegisters : Prop :=
  ∀ (s : State) (e : Event), s.pending = [] →
    step s = .next s ∧ step { s with pending := [e] } = runEvents [e] s

/-- 10_state.md R41: the reset state: initially, after the reset input of a unit, and after every
`END`. `D.ACC` holds no value. -/
def Obligations.ResetStateAfterResetAndAfterEnd : Prop :=
  (State.reset.enc = { res := 0, rcnt := 0, status := .run, cause := 0 } ∧
   State.reset.dec = { res := 0, rcnt := 0, acc := [], status := .run, cause := 0 } ∧
   State.reset.dec.alen = 0) ∧
  ∀ s : State,
    (∀ rest, s.pending = .reset .enc :: rest → ∃ t, step s = .next t ∧
      t.enc = { res := 0, rcnt := 0, status := .run, cause := 0 }) ∧
    (∀ rest, s.pending = .reset .dec :: rest → ∃ t, step s = .next t ∧
      t.dec = { res := 0, rcnt := 0, acc := [], status := .run, cause := 0 } ∧ t.dec.alen = 0) ∧
    (∃ t, exec .encEnd s = .next t ∧
      t.enc = { res := 0, rcnt := 0, status := .run, cause := 0 }) ∧
    (∃ t, exec .decEnd s = .next t ∧
      t.dec = { res := 0, rcnt := 0, acc := [], status := .run, cause := 0 } ∧ t.dec.alen = 0)

/-! ### The encoder's stages (40_encoder.md) -/

/-- 40_encoder.md R101, 30_encoding.md R73 (first table): the bytes of `utf8(cp)` are the lead and
continuation markers with the bit fields of `cp` below them, so no addition of R101 carries
(40_encoder.md R108). -/
def Obligations.Utf8BytesAreBitFields : Prop :=
  ∀ cp : CodePoint, isScalar cp = true →
    (cp.toNat ≤ 0x7F → utf8 cp = [0#1 ++ cp.extractLsb' 0 7]) ∧
    (0x80 ≤ cp.toNat → cp.toNat ≤ 0x7FF →
      utf8 cp = [0b110#3 ++ cp.extractLsb' 6 5, 0b10#2 ++ cp.extractLsb' 0 6]) ∧
    (0x800 ≤ cp.toNat → cp.toNat ≤ 0xFFFF →
      utf8 cp = [0b1110#4 ++ cp.extractLsb' 12 4, 0b10#2 ++ cp.extractLsb' 6 6,
        0b10#2 ++ cp.extractLsb' 0 6]) ∧
    (0x10000 ≤ cp.toNat →
      utf8 cp = [0b11110#5 ++ cp.extractLsb' 18 3, 0b10#2 ++ cp.extractLsb' 12 6,
        0b10#2 ++ cp.extractLsb' 6 6, 0b10#2 ++ cp.extractLsb' 0 6])

/-- 42_transactions_and_laws.md R178 (from 40_encoder.md R103, R104): the start nonets of a text are
exactly those at which a character begins, the flags of a character of `k` bytes being 0 and then
`k - 1` ones; the nonets number the UTF-8 bytes; and cutting at the start nonets gives back the
characters' bytes in order, with nothing before the first. -/
def Obligations.FlagsMarkTheCharacters : Prop :=
  ∀ T : List CodePoint,
    (textNonets T).map nonetFlag =
      T.flatMap (fun c => false :: List.replicate (utf8Len c - 1) true) ∧
    (textNonets T).length = (T.map utf8Len).sum ∧
    splitRuns (textNonets T) = ([], T.map utf8)

/-- 40_encoder.md R105: for every residue within its length, the bytes `pack_step` emits followed by
the new residue are the old residue followed by the nonet, bit for bit; the residue grows by one bit,
leaving as a whole byte at eight, so that two bytes are emitted at length 7 and one otherwise. -/
def Obligations.PackStepKeepsTheBitStream : Prop :=
  ∀ (r c : Nat) (n : Nonet), c ≤ 7 → r < 2 ^ c →
    unpack (packStep r c n).bytes ++ msbBits (packStep r c n).cnt (packStep r c n).res
      = msbBits c r ++ nonetBits n ∧
    (packStep r c n).res < 2 ^ (packStep r c n).cnt ∧
    (packStep r c n).cnt = (c + 1) % 8 ∧
    (packStep r c n).bytes.length = if c = 7 then 2 else 1

/-! ### `ENC.PUT` and `ENC.END` -/

/-- 40_encoder.md R110: a `PUT` of a value that is no scalar value, in `RUN`, raises
`InvalidInputText(NOT_SCALAR)`: `STATUS` and `CAUSE` are written, nothing is emitted, the residue is
not changed. -/
def Obligations.EncPutNonScalarRaises : Prop :=
  ∀ (cp : CodePoint) (s : State), s.enc.status = .run →
    ((0xD800 ≤ cp.toNat ∧ cp.toNat ≤ 0xDFFF) ∨ 0x10FFFF < cp.toNat) →
    exec (.encPut cp) s = .next { s with enc := { s.enc with status := .fault, cause := 0x05 } } ∧
    causeKind 0x05 = 1 ∧ causeSub 0x05 = 1

/-- 40_encoder.md R111: `ENC.PUT` in `FAULT` changes no register and emits no token, whatever its
operand; a step consumes the command. -/
def Obligations.EncPutInFaultDoesNothing : Prop :=
  ∀ (cp : CodePoint) (s : State) (rest : List Event), s.enc.status = .fault →
    exec (.encPut cp) s = .next s ∧
    (s.pending = .encCmd (0#1 ++ cp) :: rest → step s = .next { s with pending := rest })

/-- 40_encoder.md R112, whole: in `FAULT` nothing; a non-scalar operand raises; else the nonets of the
character are packed in order behind the residue, the bytes are emitted in order, and nothing but the
residue and the stream is written. There are `utf8_len(cp)` bytes, and one more exactly when
`E.RCNT + utf8_len(cp) >= 8` on entry; `E.RCNT` becomes that sum modulo 8. -/
def Obligations.EncPutEncodesOneCharacter : Prop :=
  ∀ (cp : CodePoint) (s : State),
    (s.enc.status = .fault → exec (.encPut cp) s = .next s) ∧
    (s.enc.status = .run → isScalar cp = false →
      exec (.encPut cp) s =
        .next { s with enc := { s.enc with status := .fault, cause := 0x05 } }) ∧
    (s.enc.status = .run → isScalar cp = true →
      let p := packNonets s.enc.res.toNat s.enc.rcnt.toNat (charNonets cp)
      exec (.encPut cp) s =
        .next { s with
          enc := { s.enc with res := BitVec.ofNat 7 p.res, rcnt := BitVec.ofNat 3 p.cnt },
          encOut := s.encOut ++ p.bytes.map .byte } ∧
      p.bytes.length =
        utf8Len cp + (if 8 ≤ s.enc.rcnt.toNat + utf8Len cp then 1 else 0) ∧
      p.cnt = (s.enc.rcnt.toNat + utf8Len cp) % 8)

/-- 40_encoder.md R112, R105; 10_state.md R24: from a state that keeps the encoder's invariant, a
`PUT` of a scalar value in `RUN` emits bytes that, followed by the new residue, are the old residue
followed by the bit stream of the character's nonets; nothing but the residue and the stream is
written, and the invariant is kept. -/
def Obligations.EncPutAppendsTheCharactersBits : Prop :=
  ∀ (cp : CodePoint) (s : State), EncInv s.enc → s.enc.status = .run → isScalar cp = true →
    ∃ (bs : List Byte) (r : BitVec 7) (c : BitVec 3),
      exec (.encPut cp) s =
        .next { s with
          enc := { s.enc with res := r, rcnt := c }, encOut := s.encOut ++ bs.map .byte } ∧
      unpack bs ++ msbBits c.toNat r.toNat = s.enc.residueBits ++ bitsOf (charNonets cp) ∧
      EncInv { s.enc with res := r, rcnt := c }

/-- 40_encoder.md R116, whole: `ENC.END` in `RUN` emits the residue followed by zeros as one byte, when
the residue is not empty, and then `DONE(0)`; in `FAULT` it emits `DONE(E.CAUSE)` alone; all four
registers go to their reset values and nothing else is written. The padding is `8 - E.RCNT` zero bits
below the residue. -/
def Obligations.EncEndPadsReportsAndResets : Prop :=
  ∀ s : State,
    (s.enc.status = .run → s.enc.rcnt = 0 →
      exec .encEnd s = .next { s with
        enc := { res := 0, rcnt := 0, status := .run, cause := 0 },
        encOut := s.encOut ++ [.done 0] }) ∧
    (s.enc.status = .run → s.enc.rcnt ≠ 0 →
      exec .encEnd s = .next { s with
        enc := { res := 0, rcnt := 0, status := .run, cause := 0 },
        encOut := s.encOut ++
          [.byte (BitVec.ofNat 8 (s.enc.res.toNat * 2 ^ (8 - s.enc.rcnt.toNat))), .done 0] }) ∧
    (s.enc.status = .fault →
      exec .encEnd s = .next { s with
        enc := { res := 0, rcnt := 0, status := .run, cause := 0 },
        encOut := s.encOut ++ [.done s.enc.cause] }) ∧
    (EncInv s.enc → s.enc.rcnt ≠ 0 →
      byteBits (BitVec.ofNat 8 (s.enc.res.toNat * 2 ^ (8 - s.enc.rcnt.toNat))) =
        s.enc.residueBits ++ List.replicate (8 - s.enc.rcnt.toNat) false)

/-- 40_encoder.md R117: `ENC.END` in `FAULT`, from a state that keeps the encoder's invariant, emits
the single token `DONE(InvalidInputText/NOT_SCALAR)` and no padding byte and returns to the reset
state; no `BYTE` token emitted before it is part of the transaction's result. -/
def Obligations.EncEndInFaultReportsNotScalar : Prop :=
  ∀ s : State, EncInv s.enc → s.enc.status = .fault →
    exec .encEnd s = .next { s with
      enc := { res := 0, rcnt := 0, status := .run, cause := 0 },
      encOut := s.encOut ++ [.done 0x05] } ∧
    ∀ bs : List Byte, encResult (bs.map .byte ++ [.done 0x05]) = some (.err 1 1)

/-! ### The decoder's functions (41_decoder.md) -/

/-- 41_decoder.md R132: for every residue within its length, the nonet that a byte completes, if any,
followed by the new residue, is the old residue followed by the byte, bit for bit; a byte completes no
nonet exactly when the residue was empty. -/
def Obligations.UnpackStepKeepsTheBitStream : Prop :=
  ∀ (r c : Nat) (b : Byte), c ≤ 8 → r < 2 ^ c →
    (unpackStep r c b).nonet.elim [] nonetBits
        ++ msbBits (unpackStep r c b).cnt (unpackStep r c b).res
      = msbBits c r ++ byteBits b ∧
    ((unpackStep r c b).nonet = none ↔ c = 0) ∧
    (unpackStep r c b).res < 2 ^ (unpackStep r c b).cnt ∧
    (unpackStep r c b).cnt = if c = 0 then 8 else c - 1

/-- 41_decoder.md R140 (with 40_encoder.md R102): `utf8_decode_one(bs)` is the scalar value whose UTF-8
form is exactly `bs`, if there is one, and none if there is not; it accepts exactly the rows of the
second table of 30_encoding.md R73. -/
def Obligations.Utf8DecodeOneInvertsUtf8 : Prop :=
  (∀ (bs : List Byte) (cp : CodePoint),
    utf8DecodeOne bs = some cp ↔ isScalar cp = true ∧ bs = utf8 cp) ∧
  (∀ bs : List Byte, (utf8DecodeOne bs).isSome = wellFormedUtf8 bs)

/-- 41_decoder.md R147: the runs that are no character, case by case: (a) a first byte that begins
none, (b) and (c) a run shorter or longer than its first byte demands, (d) a later byte outside
`80..BF`, (e) an overlong form, (f) a surrogate, (g) a value above `U+10FFFF`, (h) five bytes or
more. -/
def Obligations.MalformedRunsAreNoCharacter : Prop :=
  ∀ (b0 : Byte) (bs : List Byte),
    ((0x80 ≤ b0.toNat ∧ b0.toNat ≤ 0xC1) ∨ 0xF5 ≤ b0.toNat →
      utf8DecodeOne (b0 :: bs) = none) ∧
    (b0.toNat ≤ 0x7F → bs.length ≠ 0 → utf8DecodeOne (b0 :: bs) = none) ∧
    (0xC2 ≤ b0.toNat → b0.toNat ≤ 0xDF → bs.length ≠ 1 → utf8DecodeOne (b0 :: bs) = none) ∧
    (0xE0 ≤ b0.toNat → b0.toNat ≤ 0xEF → bs.length ≠ 2 → utf8DecodeOne (b0 :: bs) = none) ∧
    (0xF0 ≤ b0.toNat → b0.toNat ≤ 0xF4 → bs.length ≠ 3 → utf8DecodeOne (b0 :: bs) = none) ∧
    (∀ b ∈ bs, (b.toNat < 0x80 ∨ 0xBF < b.toNat) → utf8DecodeOne (b0 :: bs) = none) ∧
    (∀ (b1 : Byte) (tl : List Byte), bs = b1 :: tl →
      (b0.toNat = 0xE0 → b1.toNat < 0xA0 → utf8DecodeOne (b0 :: bs) = none) ∧
      (b0.toNat = 0xED → 0xA0 ≤ b1.toNat → utf8DecodeOne (b0 :: bs) = none) ∧
      (b0.toNat = 0xF0 → b1.toNat < 0x90 → utf8DecodeOne (b0 :: bs) = none) ∧
      (b0.toNat = 0xF4 → 0x90 ≤ b1.toNat → utf8DecodeOne (b0 :: bs) = none)) ∧
    (4 ≤ bs.length → utf8DecodeOne (b0 :: bs) = none)

/-! ### The nonets -/

/-- 41_decoder.md R135, whole: in `RUN` a start nonet begins a run with its data byte when nothing is
held; when a run is held that is one character, that character is emitted first; when the run held is
none, `BAD_RUN` is raised and the accumulator is left as it was. Nothing else is written. -/
def Obligations.NonetStartFlushesAndBeginsARun : Prop :=
  ∀ (d : Byte) (s : State), s.dec.status = .run →
    (s.dec.acc = [] → exec (.nonetStart d) s = .next { s with dec := { s.dec with acc := [d] } }) ∧
    (∀ cp, s.dec.acc ≠ [] → utf8DecodeOne s.dec.acc = some cp →
      exec (.nonetStart d) s = .next { s with
        dec := { s.dec with acc := [d] }, decOut := s.decOut ++ [.char cp] }) ∧
    (s.dec.acc ≠ [] → utf8DecodeOne s.dec.acc = none →
      exec (.nonetStart d) s =
        .next { s with dec := { s.dec with status := .fault, cause := 0x0A } })

/-- 41_decoder.md R136, with R137 and R146: in `RUN` a continuation nonet raises `LEADING_CONT` when
nothing is held and `BAD_RUN` when four bytes are held, storing nothing; else its data byte is appended
to the accumulator. It emits no token, and nothing else is written. -/
def Obligations.NonetContExtendsTheRun : Prop :=
  ∀ (d : Byte) (s : State), s.dec.status = .run →
    (s.dec.alen = 0 → exec (.nonetCont d) s =
      .next { s with dec := { s.dec with status := .fault, cause := 0x06 } }) ∧
    (s.dec.alen = 4 → exec (.nonetCont d) s =
      .next { s with dec := { s.dec with status := .fault, cause := 0x0A } }) ∧
    (1 ≤ s.dec.alen → s.dec.alen ≤ 3 → exec (.nonetCont d) s =
      .next { s with dec := { s.dec with acc := s.dec.acc ++ [d] } })

/-- 41_decoder.md R138 and 10_state.md R36: the state machine as a table, over the named states: the
next named state and the tokens of each row, for an accumulator of at most four bytes; in `FAULT` a
`DEC.PUT` stays in `FAULT`; `DEC.END` goes from any state to `AwaitingStart`, and no byte and no nonet
leads back there from `Accumulating`. -/
def Obligations.NamedStatesFollowTheTable : Prop :=
  ∀ (s : State) (d : Byte),
    (s.dec.namedState = .awaitingStart →
      (∃ t, exec (.nonetStart d) s = .next t ∧ t.dec.namedState = .accumulating [d] ∧
        t.decOut = s.decOut) ∧
      (∃ t, exec (.nonetCont d) s = .next t ∧ t.dec.namedState = .fault ∧
        t.dec.cause = 0x06 ∧ t.decOut = s.decOut)) ∧
    (∀ bs, s.dec.namedState = .accumulating bs → bs.length ≤ 4 →
      (∀ cp, utf8DecodeOne bs = some cp →
        ∃ t, exec (.nonetStart d) s = .next t ∧ t.dec.namedState = .accumulating [d] ∧
          t.decOut = s.decOut ++ [.char cp]) ∧
      (utf8DecodeOne bs = none →
        ∃ t, exec (.nonetStart d) s = .next t ∧ t.dec.namedState = .fault ∧
          t.dec.cause = 0x0A ∧ t.decOut = s.decOut) ∧
      (bs.length < 4 →
        ∃ t, exec (.nonetCont d) s = .next t ∧ t.dec.namedState = .accumulating (bs ++ [d]) ∧
          t.decOut = s.decOut) ∧
      (bs.length = 4 →
        ∃ t, exec (.nonetCont d) s = .next t ∧ t.dec.namedState = .fault ∧
          t.dec.cause = 0x0A ∧ t.decOut = s.decOut)) ∧
    (s.dec.namedState = .fault →
      ∃ t, exec (.decPut d) s = .next t ∧ t.dec.namedState = .fault ∧ t.decOut = s.decOut) ∧
    (∃ t, exec .decEnd s = .next t ∧ t.dec.namedState = .awaitingStart) ∧
    (∀ bs i t, s.dec.namedState = .accumulating bs →
      i ∈ [.nonetStart d, .nonetCont d, .decPut d] → exec i s = .next t →
      t.dec.namedState ≠ .awaitingStart)

/-! ### `DEC.PUT` and `DEC.END` -/

/-- 41_decoder.md R130: `DEC.PUT` in `FAULT` changes no register (the residue is not advanced) and
emits no token, whatever its operand; a step consumes the command. -/
def Obligations.DecPutInFaultDoesNothing : Prop :=
  ∀ (b : Byte) (s : State) (rest : List Event), s.dec.status = .fault →
    exec (.decPut b) s = .next s ∧
    (s.pending = .decCmd (0#1 ++ b) :: rest → step s = .next { s with pending := rest })

/-- 41_decoder.md R131, whole, with R134: `DEC.PUT` in `RUN` advances the residue by `unpack_step` and
then executes the nonet the byte completes, if any, as the instruction it decodes to, at the state with
the residue already advanced; a byte that completes no nonet raises nothing. At most one `CHAR` is
emitted. In `FAULT` it does nothing. -/
def Obligations.DecPutExecutesTheCompletedNonet : Prop :=
  ∀ (b : Byte) (s : State),
    (s.dec.status = .fault → exec (.decPut b) s = .next s) ∧
    (s.dec.status = .run →
      let u := unpackStep s.dec.res.toNat s.dec.rcnt.toNat b
      let s1 : State := { s with
        dec := { s.dec with res := BitVec.ofNat 8 u.res, rcnt := BitVec.ofNat 4 u.cnt } }
      (u.nonet = none → exec (.decPut b) s = .next s1) ∧
      (∀ n, u.nonet = some n → exec (.decPut b) s = exec (decodeNonet n) s1)) ∧
    (∃ t, exec (.decPut b) s = .next t ∧
      (t.decOut = s.decOut ∨ ∃ cp, t.decOut = s.decOut ++ [.char cp]))

/-- 41_decoder.md R131, R132, R135, R136: where `DEC.PUT` executes normally, and what it leaves. With an
empty residue the byte becomes the residue. Else, for the residue's bits followed by the byte's bits
being a nonet `n` followed by the bits of a shorter residue, the residue becomes that one, and the data
byte of `n` begins a run (the run before it, if any, being one character, which is emitted) or extends
one of 1 to 3 bytes. -/
def Obligations.DecPutCompletes : Prop :=
  ∀ (b : Byte) (s : State), s.dec.status = .run →
    (s.dec.rcnt = 0 → exec (.decPut b) s =
      .next { s with dec := { s.dec with res := b, rcnt := 8 } }) ∧
    (∀ (n : Nonet) (r : BitVec 8) (c : BitVec 4),
      s.dec.res.toNat < 2 ^ s.dec.rcnt.toNat → s.dec.rcnt.toNat ≤ 8 →
      r.toNat < 2 ^ c.toNat → s.dec.rcnt.toNat = c.toNat + 1 →
      s.dec.residueBits ++ byteBits b = nonetBits n ++ msbBits c.toNat r.toNat →
      (nonetFlag n = false → s.dec.acc = [] →
        exec (.decPut b) s = .next { s with
          dec := { s.dec with res := r, rcnt := c, acc := [nonetData n] } }) ∧
      (∀ cp, nonetFlag n = false → utf8DecodeOne s.dec.acc = some cp →
        exec (.decPut b) s = .next { s with
          dec := { s.dec with res := r, rcnt := c, acc := [nonetData n] },
          decOut := s.decOut ++ [.char cp] }) ∧
      (nonetFlag n = true → 1 ≤ s.dec.alen → s.dec.alen ≤ 3 →
        exec (.decPut b) s = .next { s with
          dec := { s.dec with res := r, rcnt := c, acc := s.dec.acc ++ [nonetData n] } }))

/-- 41_decoder.md R150, whole, with R148, R149, R151 and R152: `DEC.END` in `RUN` flushes the run held:
a run that is no character is `BAD_RUN` and ends the checks; otherwise its character, if a run is held,
is emitted, and then eight trailing bits are `BAD_LENGTH`, and one or more other trailing bits not all
zero `BAD_PAD`; then `DONE` carries the cause, which is `D.CAUSE` as it stood (0 in `RUN`, by the
invariant) where no check failed. In `FAULT` no check is made. Every register goes to its reset value. -/
def Obligations.DecEndChecksReportsAndResets : Prop :=
  ∀ s : State,
    let quiet : DecUnit := { res := 0, rcnt := 0, acc := [], status := .run, cause := 0 }
    (s.dec.status = .run → s.dec.acc ≠ [] → utf8DecodeOne s.dec.acc = none →
      exec .decEnd s = .next { s with dec := quiet, decOut := s.decOut ++ [.done 0x0A] }) ∧
    (∀ chs : List DecToken, s.dec.status = .run →
      ((s.dec.acc = [] ∧ chs = []) ∨
        ∃ cp, utf8DecodeOne s.dec.acc = some cp ∧ chs = [.char cp]) →
      (s.dec.rcnt = 8 →
        exec .decEnd s =
          .next { s with dec := quiet, decOut := s.decOut ++ chs ++ [.done 0x0E] }) ∧
      (s.dec.rcnt ≠ 8 → s.dec.rcnt ≠ 0 → s.dec.res ≠ 0 →
        exec .decEnd s =
          .next { s with dec := quiet, decOut := s.decOut ++ chs ++ [.done 0x12] }) ∧
      (s.dec.rcnt ≠ 8 → (s.dec.rcnt = 0 ∨ s.dec.res = 0) →
        exec .decEnd s =
          .next { s with dec := quiet, decOut := s.decOut ++ chs ++ [.done s.dec.cause] } ∧
        (DecInv s.dec → s.dec.cause = 0))) ∧
    (s.dec.status = .fault →
      exec .decEnd s =
        .next { s with dec := quiet, decOut := s.decOut ++ [.done s.dec.cause] })

/-- 41_decoder.md R151: `DEC.END` in `FAULT` makes no check and emits the single token `DONE(D.CAUSE)`
with the cause recorded when the error was raised; the accumulator is not flushed, the trailing group
is not judged, and the unit returns to its reset state. -/
def Obligations.DecEndInFaultReportsTheFirstError : Prop :=
  ∀ s : State, s.dec.status = .fault →
    exec .decEnd s = .next { s with
      dec := { res := 0, rcnt := 0, acc := [], status := .run, cause := 0 },
      decOut := s.decOut ++ [.done s.dec.cause] }

/-! ### Errors (60_exceptions.md) -/

/-- 60_exceptions.md R191, R197 and 10_state.md R26: the codes of the five causes, `SUB * 4 + KIND`,
their fields, and that `raise` writes `STATUS` and `CAUSE` of its unit and nothing else. -/
def Obligations.RaiseWritesStatusAndCause : Prop :=
  (ErrorCause.notScalar.code = 0x05 ∧ ErrorCause.leadingCont.code = 0x06 ∧
    ErrorCause.badRun.code = 0x0A ∧ ErrorCause.badLength.code = 0x0E ∧
    ErrorCause.badPad.code = 0x12) ∧
  (∀ e : ErrorCause, e.code.toNat = e.sub.toNat * 4 + e.kind.number.toNat ∧
    causeKind e.code = e.kind.number ∧ causeSub e.code = e.sub) ∧
  (∀ (e : ErrorCause) (s : State),
    raise .enc e s = { s with enc := { s.enc with status := .fault, cause := e.code } } ∧
    raise .dec e s = { s with dec := { s.dec with status := .fault, cause := e.code } })

/-- 60_exceptions.md R199, over all events: while a unit is in `FAULT` a `PUT` to it is consumed and
does nothing, and no event but that unit's `END` and its reset input changes its registers or its
stream; and a `PUT` to one unit in `FAULT` leaves the other unit as it is. -/
def Obligations.FaultIsSticky : Prop :=
  ∀ (s : State) (e : Event) (rest : List Event), s.pending = e :: rest →
    (s.enc.status = .fault →
      (∀ w cp, e = .encCmd w → decodeEncCmd w = .encPut cp →
        step s = .next { s with pending := rest }) ∧
      (e ≠ .reset .enc → (∀ w, e = .encCmd w → decodeEncCmd w ≠ .encEnd) →
        ∃ t, step s = .next t ∧ t.enc = s.enc ∧ t.encOut = s.encOut)) ∧
    (s.dec.status = .fault →
      (∀ w b, e = .decCmd w → decodeDecCmd w = .decPut b →
        step s = .next { s with pending := rest }) ∧
      (e ≠ .reset .dec → (∀ w, e = .decCmd w → decodeDecCmd w ≠ .decEnd) →
        ∃ t, step s = .next t ∧ t.dec = s.dec ∧ t.decOut = s.decOut))

/-- 20_memory.md R57: the tokens a step of each command emits: `ENC.PUT` 1 to 5 `BYTE`, and 0 when it
faults or the unit is in `FAULT`; `ENC.END` 0 or 1 `BYTE` and then one `DONE`; `DEC.PUT` 0 or 1 `CHAR`;
`DEC.END` 0 or 1 `CHAR` and then one `DONE`. -/
def Obligations.TokensPerStep : Prop :=
  ∀ s : State,
    (∀ cp, ∃ (t : State) (bs : List Byte), exec (.encPut cp) s = .next t ∧
      t.encOut = s.encOut ++ bs.map .byte ∧ bs.length ≤ 5 ∧
      (bs = [] ↔ s.enc.status = .fault ∨ isScalar cp = false)) ∧
    (∃ (t : State) (bs : List Byte) (c : CauseBits), exec .encEnd s = .next t ∧
      t.encOut = s.encOut ++ bs.map .byte ++ [.done c] ∧ bs.length ≤ 1) ∧
    (∀ b, ∃ (t : State) (cps : List CodePoint), exec (.decPut b) s = .next t ∧
      t.decOut = s.decOut ++ cps.map .char ∧ cps.length ≤ 1) ∧
    (∃ (t : State) (cps : List CodePoint) (c : CauseBits), exec .decEnd s = .next t ∧
      t.decOut = s.decOut ++ cps.map .char ++ [.done c] ∧ cps.length ≤ 1)

/-! ### The units are independent -/

/-- 10_state.md R20: a command to `ENC` writes only `E.*` registers and its own stream, and what it
writes and emits depends on `E.*` alone; the same of `DEC`, for its two commands and the two nonets.
Every instruction answers a next state. -/
def Obligations.UnitsShareNoState : Prop :=
  ∀ i : Instr,
    (i.format = .encCmd → ∀ s s' : State, s.enc = s'.enc →
      ∃ (t t' : State) (toks : List EncToken), exec i s = .next t ∧ exec i s' = .next t' ∧
        t.dec = s.dec ∧ t.decOut = s.decOut ∧ t.pending = s.pending ∧
        t.enc = t'.enc ∧ t.encOut = s.encOut ++ toks ∧ t'.encOut = s'.encOut ++ toks) ∧
    (i.format ≠ .encCmd → ∀ s s' : State, s.dec = s'.dec →
      ∃ (t t' : State) (toks : List DecToken), exec i s = .next t ∧ exec i s' = .next t' ∧
        t.enc = s.enc ∧ t.encOut = s.encOut ∧ t.pending = s.pending ∧
        t.dec = t'.dec ∧ t.decOut = s.decOut ++ toks ∧ t'.decOut = s'.decOut ++ toks)

/-- 20_memory.md R59: for every sequence of events, in any interleaving of the two units, each unit's
registers and stream at the end are what the events for that unit alone leave. -/
def Obligations.InterleavingDoesNotMatter : Prop :=
  ∀ (evs : List Event) (s : State),
    ∃ t te td, runEvents evs s = .next t ∧
      runEvents (evs.filter (fun e => e.unit == .enc)) s = .next te ∧
      runEvents (evs.filter (fun e => e.unit == .dec)) s = .next td ∧
      t.enc = te.enc ∧ t.encOut = te.encOut ∧ t.dec = td.dec ∧ t.decOut = td.decOut

/-- 42_transactions_and_laws.md R175: no sequence of events is illegal: every one runs to its end,
with every event consumed. -/
def Obligations.EveryEventSequenceRuns : Prop :=
  ∀ (evs : List Event) (s : State), ∃ t, runEvents evs s = .next t ∧ t.pending = []

/-! ### Invariants -/

/-- 10_state.md R28 (a), (b), (d), R35 (a), (b), (d), (e), R26, R34; 30_encoding.md R84, R85;
41_decoder.md R141: every step, from every state that keeps the invariant, leads to one that keeps it:
the residues fit their lengths, `STATUS` is `RUN` exactly when `CAUSE` is 0, only the causes of R191
are recorded and reported, the accumulator holds at most four bytes, and every `CHAR` token carries a
scalar value. -/
def Obligations.InvariantIsKeptByEveryStep : Prop :=
  ∀ s t : State, Inv s → step s = .next t → Inv t

/-- 10_state.md R28, R35: the invariant holds at reset. -/
def Obligations.InvariantHoldsAtReset : Prop := Inv State.reset

/-- 10_state.md R28 (c): when the encoder, begun in its reset state, has been put a text of scalar
values whose nonets number `k`, it is in `RUN`, `E.RCNT` is `k mod 8` and the bytes emitted so far
number `(9k) div 8`. -/
def Obligations.EncoderResidueCountsTheNonets : Prop :=
  ∀ (T : List CodePoint) (s : State), s.enc = EncUnit.reset → (∀ c ∈ T, isScalar c = true) →
    ∃ (t : State) (bs : List Byte),
      runEvents (T.map fun c => .encCmd (0#1 ++ c)) s = .next t ∧
      t.encOut = s.encOut ++ bs.map .byte ∧ t.enc.status = .run ∧
      t.enc.rcnt.toNat = (textNonets T).length % 8 ∧
      bs.length = 9 * (textNonets T).length / 8

/-- 10_state.md R35 (c), (f): when the decoder, begun in its reset state, has been put a buffer and
was in `RUN` before each byte, `D.RCNT` is `8L mod 9`; and while it is in `RUN`, no byte is held exactly
when `(8L) div 9` is 0. -/
def Obligations.DecoderResidueCountsTheBytes : Prop :=
  ∀ (B : List Byte) (s : State), s.dec = DecUnit.reset →
    ∃ t : State, runEvents (B.map fun b => .decCmd (0#1 ++ b)) s = .next t ∧
      (t.dec.status = .run → t.dec.rcnt.toNat = 8 * B.length % 9 ∧
        (t.dec.alen = 0 ↔ 8 * B.length / 9 = 0)) ∧
      ∀ b : Byte, t.dec.status = .run →
        ∃ t', exec (.decPut b) t = .next t' ∧
          t'.dec.rcnt.toNat = 8 * (B.length + 1) % 9

/-! ### The wire format and whole calls (20_memory.md, 42_transactions_and_laws.md) -/

/-- 20_memory.md R54, R55: unpacking a packed stream gives the stream followed by the padding zeros,
fewer than eight of them. -/
def Obligations.UnpackOfPackAddsOnlyPadding : Prop :=
  ∀ s : List Bool,
    (pack s).length = (s.length + 7) / 8 ∧
    unpack (pack s) = s ++ List.replicate (8 * ((s.length + 7) / 8) - s.length) false ∧
    8 * ((s.length + 7) / 8) - s.length ≤ 7

/-- 20_memory.md R65: the lengths: a text has as many nonets as its UTF-8 form has bytes; a sequence of `n` nonets has a stream of `9n` bits, a buffer of
`n + ceil(n / 8)` bytes and `(8 - (n mod 8)) mod 8` padding bits; a buffer of `L` bytes holds
`(8L) div 9` complete nonets and a trailing group of `(8L) mod 9` bits; and `L` is the length of some
valid encoding exactly when `L mod 9` is not 1, which is when the trailing group has at most 7 bits. -/
def Obligations.LengthsOfBuffers : Prop :=
  (∀ T : List CodePoint, (textNonets T).length = (T.flatMap utf8).length) ∧
  (∀ ns : List Nonet, (bitsOf ns).length = 9 * ns.length ∧
    (pack (bitsOf ns)).length = ns.length + (ns.length + 7) / 8 ∧
    bufferLength ns.length = (pack (bitsOf ns)).length ∧
    paddingLength ns.length = (8 - ns.length % 8) % 8) ∧
  (∀ B : List Byte, (completeNonets (unpack B)).length = 8 * B.length / 9 ∧
    (trailingGroup (unpack B)).length = 8 * B.length % 9 ∧
    (8 * B.length % 9 ≤ 7 ↔ B.length % 9 ≠ 1) ∧
    ((∃ T C, encodeText T = some (.ok C) ∧ C.length = B.length) ↔ B.length % 9 ≠ 1) ∧
    (B.length % 9 ≠ 1 → bufferLength (8 * B.length / 9) = B.length))

/-- 40_encoder.md R118: an encoder transaction over a text of scalar values, begun in the reset state,
emits the buffer `pack(bits(nonets(T)))` and then `DONE(OK)`; the buffer has `ceil(9n / 8)` bytes, and
its stream ends in `(8 - (n mod 8)) mod 8` zero bits. Nothing else changes. -/
def Obligations.EncoderEmitsThePackedText : Prop :=
  ∀ (T : List CodePoint) (s : State), s.enc = EncUnit.reset → (∀ c ∈ T, isScalar c = true) →
    runEvents (encodeEvents T) s = .next { s with
      pending := [],
      encOut := s.encOut ++ (pack (bitsOf (textNonets T))).map .byte ++ [.done 0] } ∧
    (pack (bitsOf (textNonets T))).length = (9 * (textNonets T).length + 7) / 8 ∧
    (unpack (pack (bitsOf (textNonets T)))).drop (9 * (textNonets T).length) =
      List.replicate ((8 - (textNonets T).length % 8) % 8) false

/-- 42_transactions_and_laws.md R172: the closed form of `encode`, from every state whose encoder is in
its reset state: the packed nonets of the text when every element is a scalar value, and
`ERR(InvalidInputText, NOT_SCALAR)` otherwise, wherever and however many the others are. -/
def Obligations.EncodeClosedForm : Prop :=
  ∀ (T : List CodePoint) (s : State), s.enc = EncUnit.reset →
    ((∀ c ∈ T, isScalar c = true) →
      encodeFrom s T = some (.ok (pack (bitsOf (textNonets T))))) ∧
    ((∃ c ∈ T, isScalar c = false) → encodeFrom s T = some (.err 1 1))

/-- 42_transactions_and_laws.md R174: the closed form of `decode`, from every state whose decoder is in
its reset state, its five lines in order: for the complete nonets cut at their start nonets into runs,
and the trailing group. -/
def Obligations.DecodeClosedForm : Prop :=
  ∀ (B : List Byte) (s : State), s.dec = DecUnit.reset →
    let lead := (splitRuns (completeNonets (unpack B))).1
    let runs := (splitRuns (completeNonets (unpack B))).2
    let t := trailingGroup (unpack B)
    (lead ≠ [] → decodeFrom s B = some (.err 2 1)) ∧
    (lead = [] → (∃ bs ∈ runs, utf8DecodeOne bs = none) → decodeFrom s B = some (.err 2 2)) ∧
    (∀ cps : List CodePoint, lead = [] → runs.map utf8DecodeOne = cps.map some →
      (t.length = 8 → decodeFrom s B = some (.err 2 3)) ∧
      (t.length ≠ 8 → true ∈ t → decodeFrom s B = some (.err 2 4)) ∧
      (t.length ≠ 8 → true ∉ t → decodeFrom s B = some (.ok cps)))

/-- 42_transactions_and_laws.md R176: the round-trip law: decoding what a text of scalar values encodes
to gives back the text, from all states whose units are in their reset states. -/
def Obligations.DecodeOfEncodeIsTheText : Prop :=
  ∀ (T : List CodePoint) (s s' : State), s.enc = EncUnit.reset → s'.dec = DecUnit.reset →
    (∀ c ∈ T, isScalar c = true) →
    ∃ B : List Byte, encodeFrom s T = some (.ok B) ∧ decodeFrom s' B = some (.ok T)

/-- 42_transactions_and_laws.md R177: the length law: a buffer that a text encodes to has
`ceil(9n / 8)` bytes for the `n` UTF-8 bytes of the text; the first `9n` bits of its stream are
`bits(nonets(T))`, and the rest, 0 to 7 bits, are 0. -/
def Obligations.LengthLaw : Prop :=
  ∀ (T : List CodePoint) (B : List Byte), encodeText T = some (.ok B) →
    let n := (T.map utf8Len).sum
    B.length = (9 * n + 7) / 8 ∧
    (unpack B).take (9 * n) = bitsOf (textNonets T) ∧
    (unpack B).drop (9 * n) = List.replicate (8 * B.length - 9 * n) false ∧
    9 * n ≤ 8 * B.length ∧ 8 * B.length - 9 * n ≤ 7

/-- 42_transactions_and_laws.md R179: exact inverse: a buffer decodes to a text exactly when the text
is one of scalar values and encodes to that buffer; so `encode` is injective on texts, the accepted
buffers are the buffers produced, and the text of an accepted buffer is unique. -/
def Obligations.DecodeIsTheExactInverse : Prop :=
  (∀ (B : List Byte) (T : List CodePoint), decodeBuffer B = some (.ok T) ↔
    (∀ c ∈ T, isScalar c = true) ∧ encodeText T = some (.ok B)) ∧
  (∀ (T T' : List CodePoint) (B : List Byte),
    encodeText T = some (.ok B) → encodeText T' = some (.ok B) → T = T') ∧
  (∀ B : List Byte, (∃ T, decodeBuffer B = some (.ok T)) ↔ ∃ T, encodeText T = some (.ok B))

/-- 42_transactions_and_laws.md R181: the empty text encodes to the empty buffer, and the empty buffer
decodes to the empty text. -/
def Obligations.EmptyInputs : Prop :=
  encodeText [] = some (.ok []) ∧ decodeBuffer [] = some (.ok [])

/-- 42_transactions_and_laws.md R182: a text whose nonets number a multiple of eight encodes to whole
bytes, so what is appended to it is appended to its buffer; the buffer of `"AA"` is not that of `"A"`
twice, which fails with `BAD_RUN`; a zero byte appended to the buffer of `"A"` is `U+0000`. -/
def Obligations.ConcatenationAtAByteBoundary : Prop :=
  (∀ (T U : List CodePoint) (B C : List Byte), (textNonets T).length % 8 = 0 →
    encodeText T = some (.ok B) → encodeText U = some (.ok C) →
    encodeText (T ++ U) = some (.ok (B ++ C))) ∧
  encodeText [0x41] = some (.ok [0x20, 0x80]) ∧
  decodeBuffer [0x20, 0x80, 0x20, 0x80] = some (.err 2 2) ∧
  decodeBuffer [0x20, 0x80, 0x00] = some (.ok [0x41, 0x00])

/-- 42_transactions_and_laws.md R183: a buffer of two bytes or more whose first bit is 1 fails with
`MalformedStream/LEADING_CONT`, and a one-byte buffer with `MalformedStream/BAD_LENGTH`. -/
def Obligations.LeadingContinuationIsRejected : Prop :=
  (∀ (b0 b1 : Byte) (B : List Byte), b0.getLsbD 7 = true →
    decodeBuffer (b0 :: b1 :: B) = some (.err 2 1)) ∧
  (∀ b : Byte, decodeBuffer [b] = some (.err 2 3))

/-- 41_decoder.md R148, R149: a buffer whose length is 1 modulo 9, and one whose trailing group has a
bit equal to 1, is malformed: `decode` gives an error of kind `MalformedStream`, whatever else the
buffer holds. -/
def Obligations.BadTrailingGroupIsRejected : Prop :=
  ∀ B : List Byte, (B.length % 9 = 1 ∨ true ∈ trailingGroup (unpack B)) →
    ∃ sub, decodeBuffer B = some (.err 2 sub)

/-- 42_transactions_and_laws.md R175, 10_state.md R40, 60_exceptions.md R200: transactions run back to
back on a unit in its reset state each give the result they would give alone, whether the ones before
them failed or not; each `END` reports once, and the unit ends in its reset state. -/
def Obligations.TransactionsAreIndependent : Prop :=
  (∀ (Ts : List (List CodePoint)) (s : State), s.enc = EncUnit.reset → s.encOut = [] →
    ∃ t, runEvents (Ts.flatMap encodeEvents) s = .next t ∧ t.enc = EncUnit.reset ∧
      (encResultsFrom [] t.encOut).map some = Ts.map encodeText) ∧
  (∀ (Bs : List (List Byte)) (s : State), s.dec = DecUnit.reset → s.decOut = [] →
    ∃ t, runEvents (Bs.flatMap decodeEvents) s = .next t ∧ t.dec = DecUnit.reset ∧
      (decResultsFrom [] t.decOut).map some = Bs.map decodeBuffer)
end

