-- ==== Sys2Proof/Laws/State.lean ====
section
/-!
SUPPORT. One lemma per field per update of `State`: what each named operation leaves in each field.
All hold by unfolding the operation once, here.
-/

namespace Sys2Proof.Machine

@[simp] theorem setEncResidue_enc (r c : Nat) (s : State) :
    (setEncResidue r c s).enc = { s.enc with res := BitVec.ofNat 7 r, rcnt := BitVec.ofNat 3 c } := rfl
@[simp] theorem setEncResidue_dec (r c : Nat) (s : State) :
    (setEncResidue r c s).dec = s.dec := rfl
@[simp] theorem setEncResidue_pending (r c : Nat) (s : State) :
    (setEncResidue r c s).pending = s.pending := rfl
@[simp] theorem setEncResidue_encOut (r c : Nat) (s : State) :
    (setEncResidue r c s).encOut = s.encOut := rfl
@[simp] theorem setEncResidue_decOut (r c : Nat) (s : State) :
    (setEncResidue r c s).decOut = s.decOut := rfl

@[simp] theorem setDecResidue_enc (r c : Nat) (s : State) :
    (setDecResidue r c s).enc = s.enc := rfl
@[simp] theorem setDecResidue_dec (r c : Nat) (s : State) :
    (setDecResidue r c s).dec = { s.dec with res := BitVec.ofNat 8 r, rcnt := BitVec.ofNat 4 c } := rfl
@[simp] theorem setDecResidue_pending (r c : Nat) (s : State) :
    (setDecResidue r c s).pending = s.pending := rfl
@[simp] theorem setDecResidue_encOut (r c : Nat) (s : State) :
    (setDecResidue r c s).encOut = s.encOut := rfl
@[simp] theorem setDecResidue_decOut (r c : Nat) (s : State) :
    (setDecResidue r c s).decOut = s.decOut := rfl

@[simp] theorem setAcc_enc (a : List Byte) (s : State) :
    (setAcc a s).enc = s.enc := rfl
@[simp] theorem setAcc_dec (a : List Byte) (s : State) :
    (setAcc a s).dec = { s.dec with acc := a } := rfl
@[simp] theorem setAcc_pending (a : List Byte) (s : State) :
    (setAcc a s).pending = s.pending := rfl
@[simp] theorem setAcc_encOut (a : List Byte) (s : State) :
    (setAcc a s).encOut = s.encOut := rfl
@[simp] theorem setAcc_decOut (a : List Byte) (s : State) :
    (setAcc a s).decOut = s.decOut := rfl

@[simp] theorem emitEnc_enc (ts : List EncToken) (s : State) :
    (emitEnc ts s).enc = s.enc := rfl
@[simp] theorem emitEnc_dec (ts : List EncToken) (s : State) :
    (emitEnc ts s).dec = s.dec := rfl
@[simp] theorem emitEnc_pending (ts : List EncToken) (s : State) :
    (emitEnc ts s).pending = s.pending := rfl
@[simp] theorem emitEnc_encOut (ts : List EncToken) (s : State) :
    (emitEnc ts s).encOut = s.encOut ++ ts := rfl
@[simp] theorem emitEnc_decOut (ts : List EncToken) (s : State) :
    (emitEnc ts s).decOut = s.decOut := rfl

@[simp] theorem emitDec_enc (ts : List DecToken) (s : State) :
    (emitDec ts s).enc = s.enc := rfl
@[simp] theorem emitDec_dec (ts : List DecToken) (s : State) :
    (emitDec ts s).dec = s.dec := rfl
@[simp] theorem emitDec_pending (ts : List DecToken) (s : State) :
    (emitDec ts s).pending = s.pending := rfl
@[simp] theorem emitDec_encOut (ts : List DecToken) (s : State) :
    (emitDec ts s).encOut = s.encOut := rfl
@[simp] theorem emitDec_decOut (ts : List DecToken) (s : State) :
    (emitDec ts s).decOut = s.decOut ++ ts := rfl

@[simp] theorem raise_enc_enc (e : ErrorCause) (s : State) :
    (raise .enc e s).enc = { s.enc with status := .fault, cause := e.code } := rfl
@[simp] theorem raise_enc_dec (e : ErrorCause) (s : State) :
    (raise .enc e s).dec = s.dec := rfl
@[simp] theorem raise_enc_pending (e : ErrorCause) (s : State) :
    (raise .enc e s).pending = s.pending := rfl
@[simp] theorem raise_enc_encOut (e : ErrorCause) (s : State) :
    (raise .enc e s).encOut = s.encOut := rfl
@[simp] theorem raise_enc_decOut (e : ErrorCause) (s : State) :
    (raise .enc e s).decOut = s.decOut := rfl

@[simp] theorem raise_dec_enc (e : ErrorCause) (s : State) :
    (raise .dec e s).enc = s.enc := rfl
@[simp] theorem raise_dec_dec (e : ErrorCause) (s : State) :
    (raise .dec e s).dec = { s.dec with status := .fault, cause := e.code } := rfl
@[simp] theorem raise_dec_pending (e : ErrorCause) (s : State) :
    (raise .dec e s).pending = s.pending := rfl
@[simp] theorem raise_dec_encOut (e : ErrorCause) (s : State) :
    (raise .dec e s).encOut = s.encOut := rfl
@[simp] theorem raise_dec_decOut (e : ErrorCause) (s : State) :
    (raise .dec e s).decOut = s.decOut := rfl

@[simp] theorem returnToReset_enc_enc (s : State) :
    (returnToReset .enc s).enc = EncUnit.reset := rfl
@[simp] theorem returnToReset_enc_dec (s : State) :
    (returnToReset .enc s).dec = s.dec := rfl
@[simp] theorem returnToReset_enc_pending (s : State) :
    (returnToReset .enc s).pending = s.pending := rfl
@[simp] theorem returnToReset_enc_encOut (s : State) :
    (returnToReset .enc s).encOut = s.encOut := rfl
@[simp] theorem returnToReset_enc_decOut (s : State) :
    (returnToReset .enc s).decOut = s.decOut := rfl

@[simp] theorem returnToReset_dec_enc (s : State) :
    (returnToReset .dec s).enc = s.enc := rfl
@[simp] theorem returnToReset_dec_dec (s : State) :
    (returnToReset .dec s).dec = DecUnit.reset := rfl
@[simp] theorem returnToReset_dec_pending (s : State) :
    (returnToReset .dec s).pending = s.pending := rfl
@[simp] theorem returnToReset_dec_encOut (s : State) :
    (returnToReset .dec s).encOut = s.encOut := rfl
@[simp] theorem returnToReset_dec_decOut (s : State) :
    (returnToReset .dec s).decOut = s.decOut := rfl

@[simp] theorem DecUnit.alen_eq (u : DecUnit) : u.alen = u.acc.length := rfl

@[simp] theorem EncUnit.reset_res : EncUnit.reset.res = 0 := rfl
@[simp] theorem EncUnit.reset_rcnt : EncUnit.reset.rcnt = 0 := rfl
@[simp] theorem EncUnit.reset_status : EncUnit.reset.status = .run := rfl
@[simp] theorem EncUnit.reset_cause : EncUnit.reset.cause = 0 := rfl

@[simp] theorem DecUnit.reset_res : DecUnit.reset.res = 0 := rfl
@[simp] theorem DecUnit.reset_rcnt : DecUnit.reset.rcnt = 0 := rfl
@[simp] theorem DecUnit.reset_acc : DecUnit.reset.acc = [] := rfl
@[simp] theorem DecUnit.reset_status : DecUnit.reset.status = .run := rfl
@[simp] theorem DecUnit.reset_cause : DecUnit.reset.cause = 0 := rfl

@[simp] theorem State.reset_enc : State.reset.enc = EncUnit.reset := rfl
@[simp] theorem State.reset_dec : State.reset.dec = DecUnit.reset := rfl
@[simp] theorem State.reset_pending : State.reset.pending = [] := rfl
@[simp] theorem State.reset_encOut : State.reset.encOut = [] := rfl
@[simp] theorem State.reset_decOut : State.reset.decOut = [] := rfl

end Sys2Proof.Machine
end

