-- ==== Sys2Proof/Laws/Ops.lean ====
section
/-!
SUPPORT. What each shared operation and each meaning can do, said once: the cases of `flush`, of the
nonets and of the four commands as explicit next states, and a step and a run as the events they
take.
-/

namespace Sys2Proof.Machine

/-! ### `flush` -/

/-- A run that is one character is emitted, and the rest of the step goes on. -/
theorem flushThen_of_some {rest : State → State} {s : State} {cp : CodePoint}
    (h : utf8DecodeOne s.dec.acc = some cp) : flushThen rest s = rest (emitDec [.char cp] s) := by
  simp [flushThen, h]

/-- A run that is no character raises `BAD_RUN`, and the rest of the step is abandoned. -/
theorem flushThen_of_none {rest : State → State} {s : State}
    (h : utf8DecodeOne s.dec.acc = none) : flushThen rest s = raise .dec .badRun s := by
  simp [flushThen, h]

/-- Everything the conditional flush can do: nothing is held and the step goes on; the run is one
character, which is emitted, and the step goes on; or the run is none and `BAD_RUN` is raised. -/
theorem flushIfAny_cases (rest : State → State) (s : State) :
    (s.dec.acc = [] ∧ flushIfAny rest s = rest s) ∨
    (s.dec.acc ≠ [] ∧ ∃ cp, utf8DecodeOne s.dec.acc = some cp ∧
      flushIfAny rest s = rest (emitDec [.char cp] s)) ∨
    (s.dec.acc ≠ [] ∧ utf8DecodeOne s.dec.acc = none ∧
      flushIfAny rest s = raise .dec .badRun s) := by
  by_cases h0 : s.dec.acc = []
  · exact .inl ⟨h0, by simp [flushIfAny, h0]⟩
  · have hpos : 0 < s.dec.alen := by simpa using List.length_pos_iff.mpr h0
    have hf : flushIfAny rest s = flushThen rest s := by simp only [flushIfAny, if_pos hpos]
    cases h : utf8DecodeOne s.dec.acc with
    | some cp => exact .inr (.inl ⟨h0, cp, rfl, hf.trans (flushThen_of_some h)⟩)
    | none => exact .inr (.inr ⟨h0, rfl, hf.trans (flushThen_of_none h)⟩)

/-! ### The meanings never stop -/

/-- Executing a nonet answers a next state. -/
theorem executeNonet_next (n : Nonet) (s : State) : ∃ t, executeNonet n s = .next t := by
  unfold executeNonet execNonetCont execNonetStart
  split <;> (try split) <;> (try split) <;> exact ⟨_, rfl⟩

/-- Every instruction answers a next state: the machine has no fault and refuses nothing. -/
theorem exec_next (i : Instr) (s : State) : ∃ t, exec i s = .next t := by
  cases i with
  | encPut cp =>
    simp only [exec, execEncPut]
    split
    · exact ⟨_, rfl⟩
    · split <;> exact ⟨_, rfl⟩
  | encEnd => exact ⟨_, rfl⟩
  | decPut b =>
    simp only [exec, execDecPut]
    split
    · exact ⟨_, rfl⟩
    · split
      · exact executeNonet_next _ _
      · exact ⟨_, rfl⟩
  | decEnd =>
    simp only [exec, execDecEnd]
    split <;> exact ⟨_, rfl⟩
  | nonetStart d => exact ⟨_, rfl⟩
  | nonetCont d =>
    simp only [exec, execNonetCont]
    split
    · exact ⟨_, rfl⟩
    · split <;> exact ⟨_, rfl⟩

/-- Executing a nonet is executing the instruction it decodes to. -/
theorem executeNonet_eq_exec (n : Nonet) (s : State) :
    executeNonet n s = exec (decodeNonet n) s := by
  unfold executeNonet decodeNonet nonetFlag nonetData
  split <;> simp_all [exec]

/-! ### A step and a run -/

/-- With nothing presented a step changes nothing. -/
theorem step_idle {s : State} (h : s.pending = []) : step s = .next s := by
  simp [step, takeEvent, h]

/-- The state that taking an event leaves, once the event is consumed: an instruction executed, or a
unit reset. -/
def afterEvent (e : Event) (s : State) : Host.Outcome State Fault Refusal :=
  match e with
  | .encCmd w => exec (decodeEncCmd w) s
  | .decCmd w => exec (decodeDecCmd w) s
  | .reset u => .next (returnToReset u s)

/-- A step takes the first event presented. -/
theorem step_of_pending {s : State} {e : Event} {rest : List Event} (h : s.pending = e :: rest) :
    step s = afterEvent e { s with pending := rest } := by
  cases e <;> simp [step, takeEvent, h, afterEvent]

/-- Taking an event answers a next state. -/
theorem afterEvent_next (e : Event) (s : State) : ∃ t, afterEvent e s = .next t := by
  cases e with
  | encCmd w => exact exec_next _ _
  | decCmd w => exact exec_next _ _
  | reset u => exact ⟨_, rfl⟩

/-- The state with other events pending. -/
def putPending (p : List Event) (s : State) : State := { s with pending := p }

@[simp] theorem putPending_enc (p : List Event) (s : State) : (putPending p s).enc = s.enc := rfl
@[simp] theorem putPending_dec (p : List Event) (s : State) : (putPending p s).dec = s.dec := rfl
@[simp] theorem putPending_pending (p : List Event) (s : State) : (putPending p s).pending = p := rfl
@[simp] theorem putPending_encOut (p : List Event) (s : State) :
    (putPending p s).encOut = s.encOut := rfl
@[simp] theorem putPending_decOut (p : List Event) (s : State) :
    (putPending p s).decOut = s.decOut := rfl

/-- An outcome with its next state mapped. -/
def mapNext (f : State → State) : Host.Outcome State Fault Refusal → Host.Outcome State Fault Refusal
  | .next s => .next (f s)
  | .fault r => .fault r
  | .refused r => .refused r

@[simp] theorem mapNext_next (f : State → State) (s : State) : mapNext f (.next s) = .next (f s) :=
  rfl

/-- A conditional flush commutes with a change of the pending events if the rest of the step does. -/
theorem flushIfAny_putPending {rest : State → State} (p : List Event)
    (hr : ∀ s, rest (putPending p s) = putPending p (rest s)) (s : State) :
    flushIfAny rest (putPending p s) = putPending p (flushIfAny rest s) := by
  by_cases h : 0 < s.dec.alen
  · rw [show flushIfAny rest s = flushThen rest s from if_pos h]
    refine (show flushIfAny rest (putPending p s) = flushThen rest (putPending p s)
      from if_pos h).trans ?_
    simp only [flushThen, putPending_dec]
    cases utf8DecodeOne s.dec.acc with
    | some cp => exact hr (emitDec [.char cp] s)
    | none => rfl
  · rw [show flushIfAny rest s = rest s from if_neg h]
    exact (show flushIfAny rest (putPending p s) = rest (putPending p s) from if_neg h).trans (hr s)

/-- The last checks of `DEC.END` neither read nor write the pending events. -/
theorem checkTrailing_putPending (p : List Event) (s : State) :
    checkTrailing (putPending p s) = putPending p (checkTrailing s) := by
  by_cases h8 : s.dec.rcnt = 8
  · rw [show checkTrailing s = raise .dec .badLength s from if_pos h8]
    exact if_pos h8
  · by_cases hp : 1 ≤ s.dec.rcnt.toNat ∧ s.dec.res ≠ 0
    · rw [show checkTrailing s = raise .dec .badPad s from (if_neg h8).trans (if_pos hp)]
      exact (if_neg h8).trans (if_pos hp)
    · rw [show checkTrailing s = s from (if_neg h8).trans (if_neg hp)]
      exact (if_neg h8).trans (if_neg hp)

/-- `NONET.CONT` neither reads nor writes the pending events. -/
theorem execNonetCont_putPending (d : Byte) (p : List Event) (s : State) :
    execNonetCont d (putPending p s) = mapNext (putPending p) (execNonetCont d s) := by
  by_cases h0 : s.dec.alen = 0
  · rw [show execNonetCont d s = .next (raise .dec .leadingCont s) from if_pos h0]
    exact if_pos h0
  · by_cases h4 : s.dec.alen = Config.runMax
    · rw [show execNonetCont d s = .next (raise .dec .badRun s)
        from (if_neg h0).trans (if_pos h4)]
      exact (if_neg h0).trans (if_pos h4)
    · rw [show execNonetCont d s = .next (setAcc (s.dec.acc ++ [d]) s)
        from (if_neg h0).trans (if_neg h4)]
      exact (if_neg h0).trans (if_neg h4)

/-- `NONET.START` neither reads nor writes the pending events. -/
theorem execNonetStart_putPending (d : Byte) (p : List Event) (s : State) :
    execNonetStart d (putPending p s) = mapNext (putPending p) (execNonetStart d s) :=
  congrArg Host.Outcome.next (flushIfAny_putPending (rest := setAcc [d]) p (fun _ => rfl) s)

/-- No nonet reads the pending events, and none writes them. -/
theorem executeNonet_putPending (n : Nonet) (p : List Event) (s : State) :
    executeNonet n (putPending p s) = mapNext (putPending p) (executeNonet n s) := by
  unfold executeNonet
  split
  · exact execNonetCont_putPending _ p s
  · exact execNonetStart_putPending _ p s

/-- No instruction reads the pending events, and none writes them. -/
theorem exec_putPending (i : Instr) (p : List Event) (s : State) :
    exec i (putPending p s) = mapNext (putPending p) (exec i s) := by
  cases i with
  | encPut cp =>
    simp only [exec, execEncPut, putPending_enc]
    cases s.enc.status with
    | fault => rfl
    | run => cases isScalar cp <;> rfl
  | encEnd => rfl
  | decPut b =>
    simp only [exec, execDecPut, putPending_dec]
    cases s.dec.status with
    | fault => rfl
    | run =>
      cases (unpackStep s.dec.res.toNat s.dec.rcnt.toNat b).nonet with
      | some n => exact executeNonet_putPending n p (setDecResidue _ _ s)
      | none => rfl
  | decEnd =>
    simp only [exec, execDecEnd, putPending_dec]
    cases s.dec.status with
    | fault => rfl
    | run =>
      simp only [decEndChecks, flushIfAny_putPending p (checkTrailing_putPending p)]
      rfl
  | nonetStart d => exact execNonetStart_putPending d p s
  | nonetCont d => exact execNonetCont_putPending d p s

/-- What taking an event does neither depends on what is pending after it nor changes it. -/
theorem afterEvent_putPending (e : Event) (p : List Event) (s : State) :
    afterEvent e (putPending p s) = mapNext (putPending p) (afterEvent e s) := by
  cases e with
  | encCmd w => exact exec_putPending _ p s
  | decCmd w => exact exec_putPending _ p s
  | reset u => cases u <;> rfl

/-- A run over no event changes nothing but the list of pending events. -/
@[simp] theorem runEvents_nil (s : State) : runEvents [] s = .next { s with pending := [] } := rfl

/-- What a run starts from pending does not matter: the events given replace it. -/
theorem runEvents_pending (evs p : List Event) (s : State) :
    runEvents evs { s with pending := p } = runEvents evs s := rfl

/-- A run over an event and more takes the event and runs over the rest. -/
theorem runEvents_cons {e : Event} {s t : State} (evs : List Event)
    (h : afterEvent e s = .next t) : runEvents (e :: evs) s = runEvents evs t := by
  have hs : Sys2Proof.core.step { s with pending := e :: evs } = .next (putPending evs t) := by
    refine (step_of_pending rfl).trans ((afterEvent_putPending e evs s).trans ?_)
    rw [h]
    rfl
  simp only [runEvents, List.length_cons, Host.Core.run, hs]
  rfl

/-- A run over two sequences of events is the one after the other. -/
theorem runEvents_append {xs : List Event} : ∀ {s t : State} (ys : List Event),
    runEvents xs s = .next t → runEvents (xs ++ ys) s = runEvents ys t := by
  induction xs with
  | nil =>
    intro s t ys h
    cases h
    rfl
  | cons e xs ih =>
    intro s t ys h
    obtain ⟨u, hu⟩ := afterEvent_next e s
    rw [runEvents_cons xs hu] at h
    rw [List.cons_append, runEvents_cons _ hu]
    exact ih ys h

end Sys2Proof.Machine
end

