-- ==== Sys2Proof/Laws/Wire.lean ====
section
/-!
SUPPORT. The laws of the wire format's functions: bits of a number and back, streams of bytes and of
nonets, and what `pack` and the grouping into nonets do to a stream built element by element.
-/

namespace Sys2Proof.Machine

/-! ### Numbers and bits -/

@[simp] theorem msbBits_length (w v : Nat) : (msbBits w v).length = w := by
  induction w with
  | zero => rfl
  | succ w ih => simp [msbBits, ih]

/-- Two numbers with the same low bits have the same bits. -/
theorem msbBits_congr {w v v' : Nat} (h : ∀ i < w, v.testBit i = v'.testBit i) :
    msbBits w v = msbBits w v' := by
  induction w with
  | zero => rfl
  | succ w ih =>
    simp only [msbBits, h w (Nat.lt_succ_self w), ih fun i hi => h i (Nat.lt_succ_of_lt hi)]

/-- Bits above the width do not count. -/
theorem msbBits_mod (w v : Nat) : msbBits w (v % 2 ^ w) = msbBits w v :=
  msbBits_congr fun i hi => by simp [Nat.testBit_mod_two_pow, hi]

/-- Two numbers side by side are their bits side by side. -/
theorem msbBits_append (a b x : Nat) {y : Nat} (hy : y < 2 ^ b) :
    msbBits (a + b) (x * 2 ^ b + y) = msbBits a x ++ msbBits b y := by
  induction a with
  | zero =>
    rw [Nat.zero_add]
    refine msbBits_congr fun i hi => ?_
    rw [Nat.mul_comm, Nat.testBit_two_pow_mul_add x hy, if_pos hi]
  | succ a ih =>
    have hb : (x * 2 ^ b + y).testBit (a + b) = x.testBit a := by
      rw [Nat.mul_comm, Nat.testBit_two_pow_mul_add x hy, if_neg (by omega)]
      congr 1
      omega
    rw [Nat.add_right_comm, msbBits, ih, hb, msbBits, List.cons_append]

/-- A number cut in two at bit `b`. -/
theorem msbBits_split (a b w : Nat) :
    msbBits (a + b) w = msbBits a (w / 2 ^ b) ++ msbBits b (w % 2 ^ b) := by
  conv_lhs => rw [← Nat.div_add_mod' w (2 ^ b)]
  exact msbBits_append a b _ (Nat.mod_lt _ (Nat.two_pow_pos b))

@[simp] theorem msbBits_zero_right (w : Nat) : msbBits w 0 = List.replicate w false := by
  induction w with
  | zero => rfl
  | succ w ih => simp [msbBits, ih, List.replicate_succ]

/-- Reading a number's bits back gives the number, cut to the width. -/
theorem msbValue_msbBits (w v : Nat) : msbValue (msbBits w v) = v % 2 ^ w := by
  induction w with
  | zero => simp [msbBits, msbValue, Nat.mod_one]
  | succ w ih =>
    rw [msbBits, msbValue, ih, msbBits_length, Nat.toNat_testBit, Nat.mod_pow_succ]
    ring

/-- A number written in `k` bits is below `2 ^ k`. -/
theorem msbValue_lt (s : List Bool) : msbValue s < 2 ^ s.length := by
  induction s with
  | nil => simp [msbValue]
  | cons b s ih =>
    rw [msbValue, List.length_cons, pow_succ]
    cases b <;> simp <;> omega

/-- Writing the number of a bit string gives back the string. -/
theorem msbBits_msbValue (s : List Bool) : msbBits s.length (msbValue s) = s := by
  induction s with
  | nil => rfl
  | cons b s ih =>
    have h := msbBits_append 1 s.length b.toNat (msbValue_lt s)
    rw [msbValue, List.length_cons, Nat.add_comm, h, ih]
    cases b <;> rfl

@[simp] theorem byteBits_length (b : Byte) : (byteBits b).length = 8 := msbBits_length _ _

@[simp] theorem nonetBits_length (n : Nonet) : (nonetBits n).length = 9 := msbBits_length _ _

/-- The byte written with eight bits has those bits. -/
theorem byteBits_ofNat (v : Nat) : byteBits (BitVec.ofNat 8 v) = msbBits 8 v := by
  rw [byteBits, BitVec.toNat_ofNat, msbBits_mod]

/-- The nonet written with nine bits has those bits. -/
theorem nonetBits_ofNat (v : Nat) : nonetBits (BitVec.ofNat 9 v) = msbBits 9 v := by
  rw [nonetBits, BitVec.toNat_ofNat, msbBits_mod]

/-- A byte is the value of its bits. -/
theorem ofNat_msbValue_byteBits (b : Byte) : BitVec.ofNat 8 (msbValue (byteBits b)) = b := by
  rw [byteBits, msbValue_msbBits, Nat.mod_eq_of_lt b.isLt, BitVec.ofNat_toNat, BitVec.setWidth_eq]

/-- A nonet is the value of its bits. -/
theorem ofNat_msbValue_nonetBits (n : Nonet) : BitVec.ofNat 9 (msbValue (nonetBits n)) = n := by
  rw [nonetBits, msbValue_msbBits, Nat.mod_eq_of_lt n.isLt, BitVec.ofNat_toNat, BitVec.setWidth_eq]

/-! ### Streams -/

@[simp] theorem unpack_nil : unpack [] = [] := rfl

@[simp] theorem unpack_cons (b : Byte) (B : List Byte) : unpack (b :: B) = byteBits b ++ unpack B :=
  rfl

theorem unpack_append (B C : List Byte) : unpack (B ++ C) = unpack B ++ unpack C := by
  simp [unpack]

@[simp] theorem unpack_length (B : List Byte) : (unpack B).length = 8 * B.length := by
  induction B with
  | nil => rfl
  | cons b B ih => simp [ih]; omega

@[simp] theorem bitsOf_nil : bitsOf [] = [] := rfl

@[simp] theorem bitsOf_cons (n : Nonet) (N : List Nonet) : bitsOf (n :: N) = nonetBits n ++ bitsOf N :=
  rfl

theorem bitsOf_append (N M : List Nonet) : bitsOf (N ++ M) = bitsOf N ++ bitsOf M := by
  simp [bitsOf]

@[simp] theorem bitsOf_length (N : List Nonet) : (bitsOf N).length = 9 * N.length := by
  induction N with
  | nil => rfl
  | cons n N ih => simp [ih]; omega

@[simp] theorem pack_nil : pack [] = [] := rfl

/-- A whole byte at the front of a stream is packed as it stands. -/
theorem pack_byteBits_append (b : Byte) (s : List Bool) : pack (byteBits b ++ s) = b :: pack s := by
  have hlen : (byteBits b ++ s).length + 7 = (s.length + 7) + 8 := by simp; omega
  rw [pack, hlen, Nat.add_div_right _ (by decide), List.range_succ_eq_map, List.map_cons,
    List.map_map]
  have hb : (takePadded 8 ((byteBits b ++ s).drop (8 * 0))) = byteBits b := by simp [takePadded]
  rw [hb, ofNat_msbValue_byteBits]
  rfl

/-- Whole bytes at the front of a stream are packed as they stand. -/
theorem pack_unpack_append (B : List Byte) (s : List Bool) : pack (unpack B ++ s) = B ++ pack s := by
  induction B with
  | nil => rfl
  | cons b B ih => rw [unpack_cons, List.append_assoc, pack_byteBits_append, ih, List.cons_append]

/-- A stream of one to seven bits is one byte, its bits followed by zeros. -/
theorem pack_short {s : List Bool} (h0 : s ≠ []) (h : s.length < 8) :
    pack s = [BitVec.ofNat 8 (msbValue (s ++ List.replicate (8 - s.length) false))] := by
  have hl : 0 < s.length := List.length_pos_iff.mpr h0
  have hn : (s.length + 7) / 8 = 1 := by omega
  have ht : takePadded 8 (s.drop (8 * 0)) = s ++ List.replicate (8 - s.length) false := by
    rw [takePadded, Nat.mul_zero, List.drop_zero, List.take_append,
      List.take_of_length_le (Nat.le_of_lt h), List.take_replicate, min_eq_left (by omega)]
  rw [pack, hn, List.range_one, List.map_singleton, ht]

/-- The complete nonets of a stream that begins with a nonet. -/
theorem completeNonets_nonetBits_append (n : Nonet) (s : List Bool) :
    completeNonets (nonetBits n ++ s) = n :: completeNonets s := by
  have hlen : (nonetBits n ++ s).length = s.length + 9 := by simp; omega
  rw [completeNonets, hlen, Nat.add_div_right _ (by decide), List.range_succ_eq_map, List.map_cons,
    List.map_map]
  have hb : (((nonetBits n ++ s).drop (9 * 0)).take 9) = nonetBits n := by simp
  rw [hb, ofNat_msbValue_nonetBits]
  rfl

/-- The trailing group of a stream that begins with a nonet. -/
theorem trailingGroup_nonetBits_append (n : Nonet) (s : List Bool) :
    trailingGroup (nonetBits n ++ s) = trailingGroup s := by
  have hlen : (nonetBits n ++ s).length = s.length + 9 := by simp; omega
  rw [trailingGroup, hlen, Nat.add_div_right _ (by decide)]
  rfl

/-- The complete nonets of a stream of nonets with fewer than nine bits behind them. -/
theorem completeNonets_bitsOf_append (N : List Nonet) {s : List Bool} (h : s.length < 9) :
    completeNonets (bitsOf N ++ s) = N := by
  induction N with
  | nil => simp [completeNonets, Nat.div_eq_of_lt h]
  | cons n N ih => rw [bitsOf_cons, List.append_assoc, completeNonets_nonetBits_append, ih]

/-- The trailing group of a stream of nonets with fewer than nine bits behind them. -/
theorem trailingGroup_bitsOf_append (N : List Nonet) {s : List Bool} (h : s.length < 9) :
    trailingGroup (bitsOf N ++ s) = s := by
  induction N with
  | nil => simp [trailingGroup, Nat.div_eq_of_lt h]
  | cons n N ih => rw [bitsOf_cons, List.append_assoc, trailingGroup_nonetBits_append, ih]

/-! ### Runs -/

/-- A continuation nonet in front joins the bytes before the first run. -/
theorem splitRuns_cons_of_flag {n : Nonet} (N : List Nonet) (h : nonetFlag n = true) :
    splitRuns (n :: N) = (nonetData n :: (splitRuns N).1, (splitRuns N).2) := by
  simp [splitRuns, h]

/-- A start nonet in front begins a run, which takes the bytes that were before the first one. -/
theorem splitRuns_cons_of_not_flag {n : Nonet} (N : List Nonet) (h : nonetFlag n = false) :
    splitRuns (n :: N) = ([], (nonetData n :: (splitRuns N).1) :: (splitRuns N).2) := by
  simp [splitRuns, h]

end Sys2Proof.Machine
end

