-- ==== Sys2Proof/Laws/Packing.lean ====
section
/-!
SUPPORT. What `pack_step` and `unpack_step` answer, case by case: the residue is a whole byte after
the nonet or not, and the byte completes a nonet or not.
-/

namespace Sys2Proof.Machine

/-- Behind seven bits a nonet makes two whole bytes and leaves an empty residue. -/
theorem packStep_seven (r : Nat) (n : Nonet) :
    packStep r 7 n = ⟨[BitVec.ofNat 8 ((r * 512 + n.toNat) / 2 ^ 8),
      BitVec.ofNat 8 ((r * 512 + n.toNat) % 2 ^ 8)], 0, 0⟩ := rfl

/-- Behind fewer than seven bits a nonet makes one whole byte and leaves one bit more. -/
theorem packStep_of_lt {c : Nat} (h : c < 7) (r : Nat) (n : Nonet) :
    packStep r c n = ⟨[BitVec.ofNat 8 ((r * 512 + n.toNat) / 2 ^ (c + 1))],
      (r * 512 + n.toNat) % 2 ^ (c + 1), c + 1⟩ := by
  have hc : c + 9 - 8 = c + 1 := by omega
  have h8 : c + 1 ≠ 8 := by omega
  simp only [packStep, hc, if_neg h8]

/-- Behind an empty residue a byte completes no nonet and becomes the residue. -/
theorem unpackStep_zero (r : Nat) (b : Byte) : unpackStep r 0 b = ⟨none, r * 256 + b.toNat, 8⟩ := rfl

/-- Behind a residue a byte completes one nonet and leaves one bit less. -/
theorem unpackStep_succ (r c : Nat) (b : Byte) :
    unpackStep r (c + 1) b = ⟨some (BitVec.ofNat 9 ((r * 256 + b.toNat) / 2 ^ c)),
      (r * 256 + b.toNat) % 2 ^ c, c⟩ := by
  have h : 9 ≤ c + 1 + 8 := by omega
  have hc : c + 1 + 8 - 9 = c := by omega
  simp only [unpackStep, if_pos h, hc]

@[simp] theorem packNonets_nil (r c : Nat) : packNonets r c [] = ⟨[], r, c⟩ := rfl

/-- Packing a nonet and more packs the nonet and then the rest behind the residue it leaves. -/
theorem packNonets_cons (r c : Nat) (n : Nonet) (ns : List Nonet) :
    packNonets r c (n :: ns) =
      ⟨(packStep r c n).bytes ++ (packNonets (packStep r c n).res (packStep r c n).cnt ns).bytes,
        (packNonets (packStep r c n).res (packStep r c n).cnt ns).res,
        (packNonets (packStep r c n).res (packStep r c n).cnt ns).cnt⟩ := rfl

end Sys2Proof.Machine
end

