-- ==== Sys2Proof/Laws/PerInstr.lean ====
section
/-!
SUPPORT. What is said of every instruction, one lemma per constructor: its encoding is a word of its
own format and matches its own row of the opcode table (30_encoding.md R71, R81, R83).
-/

namespace Sys2Proof.Laws

/-- The instruction is encoded in a word of its format that fits it, and that word agrees with the
row of the opcode table that has the instruction's mnemonic. -/
def EncodeFits.Statement (i : Instr) : Prop :=
  (encode i).format = i.format ∧ (encode i).wf = true ∧
  ∃ row ∈ opcodeRows, row.mnemonic = i.mnemonic ∧ row.matchesWord (encode i) = true

/-- A word of a row's format that fits and agrees with the row's bits matches the row. -/
theorem matchesWord_of {row : OpcodeRow} {r : RawWord} (hf : row.format = r.format)
    (hw : r.wf = true) (hm : r.value &&& row.mask = row.matchBits) : row.matchesWord r = true := by
  simp [OpcodeRow.matchesWord, hf, hw, hm]

/-- The framing or flag bit 0 above an operand. -/
theorem zero_append_and {w : Nat} (x : BitVec w) : (0#1 ++ x).toNat &&& 2 ^ w = 0 := by
  rw [Nat.and_two_pow, BitVec.testBit_toNat, BitVec.getLsbD_append]
  simp

/-- The flag bit 1 above an operand. -/
theorem one_append_and {w : Nat} (x : BitVec w) : (1#1 ++ x).toNat &&& 2 ^ w = 2 ^ w := by
  rw [Nat.and_two_pow, BitVec.testBit_toNat, BitVec.getLsbD_append]
  simp

theorem EncodeFits.encPut (cp : CodePoint) : EncodeFits.Statement (.encPut cp) :=
  have hw : (encode (.encPut cp)).wf = true := decide_eq_true (0#1 ++ cp).isLt
  ⟨rfl, hw, ⟨"ENC.PUT", .encCmd, 0x000000, 0x200000⟩, by simp [opcodeRows], rfl,
    matchesWord_of rfl hw (zero_append_and cp)⟩

theorem EncodeFits.encEnd : EncodeFits.Statement .encEnd :=
  ⟨rfl, by decide, ⟨"ENC.END", .encCmd, 0x200000, 0x200000⟩, by simp [opcodeRows], rfl, by decide⟩

theorem EncodeFits.decPut (b : Byte) : EncodeFits.Statement (.decPut b) :=
  have hw : (encode (.decPut b)).wf = true := decide_eq_true (0#1 ++ b).isLt
  ⟨rfl, hw, ⟨"DEC.PUT", .decCmd, 0x000, 0x100⟩, by simp [opcodeRows], rfl,
    matchesWord_of rfl hw (zero_append_and b)⟩

theorem EncodeFits.decEnd : EncodeFits.Statement .decEnd :=
  ⟨rfl, by decide, ⟨"DEC.END", .decCmd, 0x100, 0x100⟩, by simp [opcodeRows], rfl, by decide⟩

theorem EncodeFits.nonetStart (d : Byte) : EncodeFits.Statement (.nonetStart d) :=
  have hw : (encode (.nonetStart d)).wf = true := decide_eq_true (0#1 ++ d).isLt
  ⟨rfl, hw, ⟨"NONET.START", .nonet, 0x000, 0x100⟩, by simp [opcodeRows], rfl,
    matchesWord_of rfl hw (zero_append_and d)⟩

theorem EncodeFits.nonetCont (d : Byte) : EncodeFits.Statement (.nonetCont d) :=
  have hw : (encode (.nonetCont d)).wf = true := decide_eq_true (1#1 ++ d).isLt
  ⟨rfl, hw, ⟨"NONET.CONT", .nonet, 0x100, 0x100⟩, by simp [opcodeRows], rfl,
    matchesWord_of rfl hw (one_append_and d)⟩

end Sys2Proof.Laws
end

