-- ==== Sys2Proof/Machine/Assembler.lean ====
section
/-!
DEFINITION. The assembler syntax of 30_encoding.md R88 and the pseudo-instructions of R89, over lists
of characters: one command a line, a semicolon starts a comment. The spec uses the syntax in its
examples only; blanks and commas between words, the letter case of digits, and how a quoted text stands
on a line are the model's choice (DESIGN CHOICE, notes/assumptions/12.md).
-/

namespace Sys2Proof.Machine

/-- The value of a hexadecimal digit. -/
def hexDigit (c : Char) : Option Nat :=
  let n := c.toNat
  if 48 ≤ n ∧ n ≤ 57 then some (n - 48)
  else if 65 ≤ n ∧ n ≤ 70 then some (n - 55)
  else if 97 ≤ n ∧ n ≤ 102 then some (n - 87)
  else none

/-- The number a list of hexadecimal digits writes, the first digit the highest; `a` is the value of
the digits before it. -/
def hexValue (a : Nat) : List Char → Option Nat
  | [] => some a
  | c :: cs =>
    match hexDigit c with
    | some d => hexValue (16 * a + d) cs
    | none => none

/-- A number of at least `lo` and at most `hi` hexadecimal digits. -/
def hexNumber (lo hi : Nat) (cs : List Char) : Option Nat :=
  if lo ≤ cs.length ∧ cs.length ≤ hi then hexValue 0 cs else none

/-- The operand of `ENC.PUT`: `U+hhhh` with 4 to 6 digits, or `0xhhhhhh` (30_encoding.md R88); the
number must fit the 21-bit field. -/
def charOperand : List Char → Option CodePoint
  | 'U' :: '+' :: ds => (hexNumber 4 6 ds).bind fit
  | '0' :: 'x' :: ds => (hexNumber 6 6 ds).bind fit
  | _ => none
where
  /-- The number as a 21-bit field, if it fits. -/
  fit (v : Nat) : Option CodePoint := if v < 2 ^ 21 then some (BitVec.ofNat 21 v) else none

/-- The operand of `DEC.PUT`: `hh` or `0xhh` (30_encoding.md R88). -/
def byteOperand : List Char → Option Byte
  | '0' :: 'x' :: ds => (hexNumber 2 2 ds).map (BitVec.ofNat 8)
  | ds => (hexNumber 2 2 ds).map (BitVec.ofNat 8)

/-- The line without its comment. -/
def withoutComment (line : List Char) : List Char := line.takeWhile (· ≠ ';')

/-- The words of a line, cut at blanks and at commas, which R89 writes between the operands of
`ENCODE`; `w` is the word being read (DESIGN CHOICE, notes/assumptions/12.md). -/
def wordsFrom (w : List Char) : List Char → List (List Char)
  | [] => if w = [] then [] else [w]
  | c :: cs =>
    if c = ' ' ∨ c = ',' then (if w = [] then wordsFrom [] cs else w :: wordsFrom [] cs)
    else wordsFrom (w ++ [c]) cs

/-- The commands a line without a quoted text stands for: one for a command, the expansion for a
pseudo-instruction, nothing for an empty line (30_encoding.md R88, R89); none for any other line. The
operands of `ENCODE` are written as that of `ENC.PUT`, those of `DECODE` as that of `DEC.PUT` (DESIGN
CHOICE, notes/assumptions/12.md). -/
def assembleWords (line : List Char) : Option (List Instr) :=
  match wordsFrom [] (withoutComment line) with
  | [] => some []
  | m :: ops =>
    if m = "ENC.PUT".toList then
      match ops with
      | [o] => (charOperand o).map fun cp => [.encPut cp]
      | _ => none
    else if m = "ENC.END".toList then (if ops = [] then some [.encEnd] else none)
    else if m = "DEC.PUT".toList then
      match ops with
      | [o] => (byteOperand o).map fun b => [.decPut b]
      | _ => none
    else if m = "DEC.END".toList then (if ops = [] then some [.decEnd] else none)
    else if m = "ENCODE".toList then (ops.mapM charOperand).map encodeProgram
    else if m = "DECODE".toList then (ops.mapM byteOperand).map decodeProgram
    else none

/-- `ENCODE "text"`: the characters of the text are its scalar values (30_encoding.md R89). -/
def encodeString (text : List Char) : List Instr :=
  encodeProgram (text.map fun c => BitVec.ofNat 21 c.toNat)

/-- The list without its leading blanks. -/
def skipBlanks (cs : List Char) : List Char := cs.dropWhile (· = ' ')

/-- The text of a line `ENCODE "text"`: `ENCODE`, a quote, every character up to the next quote
(blanks, commas and semicolons among them; there is no escape), that quote, and nothing behind it but
blanks and a comment. R89 shows the form and says nothing of how the text is delimited (DESIGN CHOICE,
notes/assumptions/12.md). -/
def quotedText (line : List Char) : Option (List Char) :=
  let cs := skipBlanks line
  if cs.take 6 = "ENCODE".toList then
    match skipBlanks (cs.drop 6) with
    | '"' :: quoted =>
      match quoted.dropWhile (· ≠ '"') with
      | _ :: rest =>
        if skipBlanks (withoutComment rest) = [] then some (quoted.takeWhile (· ≠ '"')) else none
      | [] => none
    | _ => none
  else none

/-- The commands a line of assembler stands for (30_encoding.md R88, R89): the expansion of
`ENCODE "text"`, and otherwise what its words stand for. -/
def assembleLine (line : List Char) : Option (List Instr) :=
  match quotedText line with
  | some text => some (encodeString text)
  | none => assembleWords line

end Sys2Proof.Machine
end

