-- ==== Sys2Proof/Tests/Slice0.lean ====
section
/-!
SUPPORT. Tests: what WellFormed refuses; words written out from the formats of 30_encoding.md, with
what they decode to; one step of each instruction on a small state, with the result the spec's own
example or rule gives; and, for every statement with hypotheses, a witness of each of its clauses at
the boundary values.
-/

namespace Sys2Proof.Tests

open Sys2Proof Sys2Proof.Machine Sys2Proof.Safety

/-- A state with the given encoder registers, `STATUS` told by `CAUSE`, all else at reset. -/
def encState (res : BitVec 7) (rcnt : BitVec 3) (cause : CauseBits) : State :=
  { State.reset with enc := ⟨res, rcnt, if cause = 0 then .run else .fault, cause⟩ }

/-- A state with the given decoder registers, `STATUS` told by `CAUSE`, all else at reset. -/
def decState (res : Byte) (rcnt : BitVec 4) (acc : List Byte) (cause : CauseBits) : State :=
  { State.reset with dec := ⟨res, rcnt, acc, if cause = 0 then .run else .fault, cause⟩ }

/-- A state with these events presented, all else at reset. -/
def presenting (evs : List Event) : State := { State.reset with pending := evs }

/-- The next state an outcome answers, if it does. -/
def next? : Host.Outcome State Fault Refusal → Option State
  | .next s => some s
  | .fault _ => none
  | .refused _ => none

/-! ### Well-formedness: each format refuses a number that does not fit it -/

theorem test_wf_refuses_23_bits : (RawWord.mk .encCmd 0x400000).wf = false := by decide
theorem test_wf_refuses_10_bits : (RawWord.mk .decCmd 0x200).wf = false := by decide
theorem test_wf_refuses_nonet_512 : (RawWord.mk .nonet 0x200).wf = false := by decide
theorem test_decode_refuses_by_name :
    decode ⟨.encCmd, 0x400000⟩ = .error (.wordTooWide .encCmd) ∧
    decodeTable 32 0 = .error (.noSuchPort 32) := ⟨rfl, rfl⟩

/-! ### Words written out bit by bit (30_encoding.md R70, R71, R80 to R83) -/

/-- R81: bit 21 is 0, the character `U+1F600` below it. -/
theorem test_decode_encPut :
    decode ⟨.encCmd, 0b0000011111011000000000⟩ = .ok (.encPut 0x1F600) := rfl

/-- R81: bit 21 is 1; the 21 bits below are ignored. -/
theorem test_decode_encEnd :
    decode ⟨.encCmd, 0b1000000000000000000000⟩ = .ok .encEnd ∧
    decode ⟨.encCmd, 0b1010101010101010101011⟩ = .ok .encEnd := ⟨rfl, rfl⟩

/-- R83: bit 8 is 0, the byte `0xB0` below it. -/
theorem test_decode_decPut : decode ⟨.decCmd, 0b010110000⟩ = .ok (.decPut 0xB0) := rfl

/-- R83: bit 8 is 1; the eight bits below are ignored. -/
theorem test_decode_decEnd :
    decode ⟨.decCmd, 0b100000000⟩ = .ok .decEnd ∧ decode ⟨.decCmd, 0b110000001⟩ = .ok .decEnd :=
  ⟨rfl, rfl⟩

/-- R71: the flag is 0, the data byte `0xC3`. -/
theorem test_decode_nonetStart : decode ⟨.nonet, 0b011000011⟩ = .ok (.nonetStart 0xC3) := rfl

/-- R71: the flag is 1, the data byte `0xA9`. -/
theorem test_decode_nonetCont : decode ⟨.nonet, 0b110101001⟩ = .ok (.nonetCont 0xA9) := rfl

/-- The same words as the encoder writes them; the ignored bits of an `END` word are 0. -/
theorem test_encode :
    encode (.encPut 0x1F600) = ⟨.encCmd, 0x01F600⟩ ∧ encode .encEnd = ⟨.encCmd, 0x200000⟩ ∧
    encode (.decPut 0xB0) = ⟨.decCmd, 0x0B0⟩ ∧ encode .decEnd = ⟨.decCmd, 0x100⟩ ∧
    encode (.nonetStart 0xC3) = ⟨.nonet, 0x0C3⟩ ∧ encode (.nonetCont 0xA9) = ⟨.nonet, 0x1A9⟩ := by
  decide

/-- The host's table words: three bytes for `ENC_CMD`, two for `DEC_CMD`. -/
theorem test_decodeTableWord :
    decodeTableWord 24 0x000041 = some (.encPut 0x41) ∧ decodeTableWord 24 0x200000 = some .encEnd ∧
    decodeTableWord 16 0x0B0 = some (.decPut 0xB0) ∧ decodeTableWord 16 0x100 = some .decEnd ∧
    decodeTableWord 24 0x400000 = none ∧ decodeTableWord 16 0x200 = none := by decide

/-- The parameters of 00_scope.md R6 are the widths the types have. -/
theorem test_config :
    Format.encCmd.width = 22 ∧ Format.decCmd.width = 9 ∧ Format.nonet.width = 9 ∧
    Config.flagW + Config.dataW = Config.nonetW ∧ Config.runMin = 1 ∧ Config.padMax = 7 := by decide

/-! ### Single steps, results from the rules' own examples -/

/-- 40_encoder.md R112: from reset, the word `0x000041` emits `BYTE(0x20)` and leaves one bit, 1. -/
theorem test_step_encPut :
    next? (step (State.reset.withFetchWord 24 0x000041)) =
      some { encState 1 1 0 with encOut := [.byte 0x20] } := by decide

/-- 40_encoder.md R112: then `ENC.PUT U+00E9` emits `BYTE(0xB0)`, `BYTE(0xF5)` and leaves 1 in 3
bits. -/
theorem test_encPut_two_bytes :
    next? (exec (.encPut 0xE9) (encState 1 1 0)) =
      some { encState 1 3 0 with encOut := [.byte 0xB0, .byte 0xF5] } := by decide

/-- 40_encoder.md R116: with one residue bit 1, the word `0x200000` emits `BYTE(0x80)`, `DONE(OK)`. -/
theorem test_step_encEnd :
    next? (step ((encState 1 1 0).withFetchWord 24 0x200000)) =
      some { State.reset with encOut := [.byte 0x80, .done 0] } := by decide

/-- 40_encoder.md R117: in `FAULT` one token, `DONE(InvalidInputText/NOT_SCALAR)`, word `0x105`
(30_encoding.md R84). -/
theorem test_encEnd_fault :
    next? (exec .encEnd (encState 1 1 0x05)) = some { State.reset with encOut := [.done 0x05] } ∧
    (EncToken.done 0x05).word = 0x105 := by decide

/-- 41_decoder.md R131: a residue of eight bits `0x20` and the byte `0xB0` are the nonet `0x041` and
seven bits `0x30`. -/
theorem test_step_decPut :
    next? (step ((decState 0x20 8 [] 0).withFetchWord 16 0x0B0)) =
      some (decState 0x30 7 [0x41] 0) := by decide

/-- 41_decoder.md R131, R146: a first nonet `1:80` raises `LEADING_CONT` and the residue stays
advanced (the buffer `C0 30` of R152). -/
theorem test_decPut_leading_cont :
    next? (exec (.decPut 0x30) (decState 0xC0 8 [] 0)) = some (decState 0x30 7 [] 0x06) := by
  decide

/-- 41_decoder.md R150: the example of the rule: `CHAR(U+1F600)`, `DONE(OK)`. -/
theorem test_step_decEnd :
    next? (step ((decState 0 4 [0xF0, 0x9F, 0x98, 0x80] 0).withFetchWord 16 0x100)) =
      some { State.reset with decOut := [.char 0x1F600, .done 0] } := by decide

/-- 41_decoder.md R150, R152: the last run is good and the padding is not: `CHAR` and then
`DONE(MalformedStream/BAD_PAD)`, word `0x200012` (30_encoding.md R85). -/
theorem test_decEnd_bad_pad :
    next? (exec .decEnd (decState 1 7 [0x41] 0)) =
      some { State.reset with decOut := [.char 0x41, .done 0x12] } ∧
    (DecToken.done 0x12).word = 0x200012 := by decide

/-- 41_decoder.md R135: the example of the rule. -/
theorem test_nonetStart :
    next? (exec (.nonetStart 0xC3) (decState 0x35 6 [0x41] 0)) =
      some { decState 0x35 6 [0xC3] 0 with decOut := [.char 0x41] } := by decide

/-- 41_decoder.md R136: the example of the rule. -/
theorem test_nonetCont :
    next? (exec (.nonetCont 0xA9) (decState 0 3 [0xC3] 0)) = some (decState 0 3 [0xC3, 0xA9] 0) := by
  decide

/-! ### Stage functions, results from the rules' own examples -/

/-- 40_encoder.md R101, R103. -/
theorem test_utf8 :
    utf8 0x1F600 = [0xF0, 0x9F, 0x98, 0x80] ∧ utf8 0 = [0x00] ∧ utf8 0xFEFF = [0xEF, 0xBB, 0xBF] ∧
    mknonet 0 0x41 = 0x041 ∧ mknonet 1 0xA9 = 0x1A9 := by decide

/-- 40_encoder.md R105; 41_decoder.md R132. -/
theorem test_pack_unpack_step :
    packStep 0 0 0x041 = ⟨[0x20], 1, 1⟩ ∧ packStep 0x47 7 0x048 = ⟨[0x8E, 0x48], 0, 0⟩ ∧
    unpackStep 0 0 0x20 = ⟨none, 0x20, 8⟩ ∧ unpackStep 0x20 8 0x80 = ⟨some 0x041, 0, 7⟩ := by decide

/-- 41_decoder.md R140: its examples. -/
theorem test_utf8DecodeOne :
    utf8DecodeOne [0xC3, 0xA9] = some 0xE9 ∧ utf8DecodeOne [0xC0, 0x80] = none ∧
    utf8DecodeOne [0xED, 0xA0, 0x80] = none ∧ utf8DecodeOne [0xF4, 0x90, 0x80, 0x80] = none ∧
    utf8DecodeOne [0x41, 0x42] = none ∧ utf8DecodeOne [0xE0, 0xA4] = none := by decide

/-- 30_encoding.md R88, R89. -/
theorem test_assembleLine :
    assembleLine "ENC.PUT U+1F600 ; a face".toList = some [.encPut 0x1F600] ∧
    assembleLine "DEC.PUT 0x20".toList = some [.decPut 0x20] ∧
    assembleLine "DECODE 20 80".toList = some [.decPut 0x20, .decPut 0x80, .decEnd] ∧
    assembleLine "ENC.PUT U+41".toList = none := by decide

/-- 30_encoding.md R89; the line of 95_test_vectors.md P7, shortened; an `ENCODE` with no operand; and
what the model chose inside and behind the quotes (notes/assumptions/12.md). -/
theorem test_assembleLine_quoted :
    assembleLine "ENCODE \"AB\"".toList = some [.encPut 0x41, .encPut 0x42, .encEnd] ∧
    assembleLine "ENCODE \"\"".toList = some [.encEnd] ∧
    assembleLine "ENCODE".toList = some [.encEnd] ∧
    assembleLine "ENCODE \"; ,\" ; text".toList =
      some [.encPut 0x3B, .encPut 0x20, .encPut 0x2C, .encEnd] ∧
    assembleLine "ENCODE \"A".toList = none ∧ assembleLine "ENCODE \"A\" B".toList = none := by
  decide

/-! ### Witnesses: the hypotheses of each statement are met together

One theorem for a statement, or for several with the same hypotheses; each line of a conjunction is
one clause at a boundary value. -/

theorem witness_EveryWordSelectsAnInstruction :
    (0 < 2 ^ Format.encCmd.width ∧ decode ⟨.encCmd, 0⟩ = .ok (.encPut 0)) ∧
    (0x3FFFFF < 2 ^ Format.encCmd.width ∧ decode ⟨.encCmd, 0x3FFFFF⟩ = .ok .encEnd) ∧
    (0x1FF < 2 ^ Format.decCmd.width ∧ decode ⟨.decCmd, 0x1FF⟩ = .ok .decEnd) ∧
    (2 ^ Format.encCmd.width ≤ 0x400000 ∧ 2 ^ Format.nonet.width ≤ 0x200) := by
  refine ⟨⟨by decide, rfl⟩, ⟨by decide, rfl⟩, ⟨by decide, rfl⟩, by decide⟩

theorem witness_DecoderAgreesWithOpcodeTable :
    decode ⟨.nonet, 0x1FF⟩ = .ok (.nonetCont 0xFF) ∧
    ⟨"NONET.CONT", .nonet, 0x100, 0x100⟩ ∈ opcodeRows := ⟨rfl, by simp [opcodeRows]⟩

theorem witness_StepRunsTheDecodedCommand :
    ((presenting [.encCmd 0x000041]).pending = .encCmd 0x000041 :: [] ∧
      decode ⟨.encCmd, (0x000041 : Word22).toNat⟩ = .ok (.encPut 0x41)) ∧
    ((presenting [.decCmd 0x1FF, .reset .enc]).pending = .decCmd 0x1FF :: [.reset .enc] ∧
      decode ⟨.decCmd, (0x1FF : Word9).toNat⟩ = .ok .decEnd) := ⟨⟨rfl, rfl⟩, rfl, rfl⟩

/-- For ResetInputResetsOneUnit, ResetStateAfterResetAndAfterEnd and IdleBlockHoldsItsRegisters. -/
theorem witness_reset_and_idle :
    (presenting [.reset .enc]).pending = .reset .enc :: [] ∧
    (presenting [.reset .dec]).pending = .reset .dec :: [] ∧ (presenting []).pending = [] :=
  ⟨rfl, rfl, rfl⟩

theorem witness_Utf8BytesAreBitFields :
    isScalar 0 = true ∧ isScalar 0x7F = true ∧ isScalar 0x80 = true ∧ isScalar 0x7FF = true ∧
    isScalar 0x800 = true ∧ isScalar 0xD7FF = true ∧ isScalar 0xE000 = true ∧
    isScalar 0xFFFF = true ∧ isScalar 0x10000 = true ∧ isScalar 0x10FFFF = true := by decide

/-- For PackStepKeepsTheBitStream (`c` to 7) and UnpackStepKeepsTheBitStream (`c` to 8). -/
theorem witness_residues :
    (0 ≤ 7 ∧ 0 < 2 ^ 0) ∧ (7 ≤ 7 ∧ 127 < 2 ^ 7) ∧ (8 ≤ 8 ∧ 255 < 2 ^ 8) := by decide

theorem witness_EncPutNonScalarRaises :
    (encState 1 1 0).enc.status = .run ∧
    (0xD800 ≤ (0xD800 : CodePoint).toNat ∧ (0xD800 : CodePoint).toNat ≤ 0xDFFF) ∧
    (0xD800 ≤ (0xDFFF : CodePoint).toNat ∧ (0xDFFF : CodePoint).toNat ≤ 0xDFFF) ∧
    0x10FFFF < (0x110000 : CodePoint).toNat ∧ 0x10FFFF < (0x1FFFFF : CodePoint).toNat := by decide

/-- For EncPutInFaultDoesNothing. -/
theorem witness_enc_fault_put :
    ({ encState 1 1 0x05 with pending := [.encCmd (0#1 ++ 0x41#21)] } : State).enc.status = .fault ∧
    ({ encState 1 1 0x05 with pending := [.encCmd (0#1 ++ 0x41#21)] } : State).pending =
      .encCmd (0#1 ++ 0x41#21) :: [] := ⟨by decide, rfl⟩

theorem witness_EncPutEncodesOneCharacter :
    (encState 1 1 0x05).enc.status = .fault ∧
    ((encState 1 1 0).enc.status = .run ∧ isScalar 0xD800 = false) ∧
    ((encState 0x7F 7 0).enc.status = .run ∧ isScalar 0x10FFFF = true) := by decide

/-- For EncPutAppendsTheCharactersBits and the last clause of EncEndPadsReportsAndResets. -/
theorem witness_encInv_run :
    EncInv (encState 0x7F 7 0).enc ∧ (encState 0x7F 7 0).enc.status = .run ∧
    (encState 0x7F 7 0).enc.rcnt ≠ 0 ∧ isScalar 0x10FFFF = true := by
  refine ⟨⟨by decide, by decide, by decide⟩, by decide, by decide, by decide⟩

theorem witness_EncEndPadsReportsAndResets :
    ((encState 0 0 0).enc.status = .run ∧ (encState 0 0 0).enc.rcnt = 0) ∧
    ((encState 1 1 0).enc.status = .run ∧ (encState 1 1 0).enc.rcnt ≠ 0) ∧
    (encState 1 1 0x05).enc.status = .fault := by decide

theorem witness_EncEndInFaultReportsNotScalar :
    EncInv (encState 1 1 0x05).enc ∧ (encState 1 1 0x05).enc.status = .fault := by
  refine ⟨⟨by decide, by decide, by decide⟩, by decide⟩

/-- The clauses of R147 in order: first bytes, lengths, a later byte, and the four narrowed second
bytes. -/
theorem witness_MalformedRunsAreNoCharacter :
    ((0x80 ≤ (0xC1 : Byte).toNat ∧ (0xC1 : Byte).toNat ≤ 0xC1) ∧ 0xF5 ≤ (0xF5 : Byte).toNat) ∧
    ((0x7F : Byte).toNat ≤ 0x7F ∧ [(0x42 : Byte)].length ≠ 0) ∧
    (0xC2 ≤ (0xC2 : Byte).toNat ∧ (0xC2 : Byte).toNat ≤ 0xDF ∧ ([] : List Byte).length ≠ 1) ∧
    (0xE0 ≤ (0xEF : Byte).toNat ∧ (0xEF : Byte).toNat ≤ 0xEF ∧ [(0xA4 : Byte)].length ≠ 2) ∧
    (0xF0 ≤ (0xF4 : Byte).toNat ∧ (0xF4 : Byte).toNat ≤ 0xF4 ∧ [(0x9F : Byte), 0x98].length ≠ 3) ∧
    ((0x7F : Byte) ∈ [(0x7F : Byte)] ∧ (0x7F : Byte).toNat < 0x80) ∧
    ((0xC0 : Byte) ∈ [(0xC0 : Byte)] ∧ 0xBF < (0xC0 : Byte).toNat) ∧
    ((0xE0 : Byte).toNat = 0xE0 ∧ (0x9F : Byte).toNat < 0xA0) ∧
    ((0xED : Byte).toNat = 0xED ∧ 0xA0 ≤ (0xA0 : Byte).toNat) ∧
    ((0xF0 : Byte).toNat = 0xF0 ∧ (0x8F : Byte).toNat < 0x90) ∧
    ((0xF4 : Byte).toNat = 0xF4 ∧ 0x90 ≤ (0x90 : Byte).toNat) ∧
    4 ≤ [(0x80 : Byte), 0x80, 0x80, 0x80].length := by decide

theorem witness_NonetStartFlushesAndBeginsARun :
    ((decState 0 7 [] 0).dec.status = .run ∧ (decState 0 7 [] 0).dec.acc = []) ∧
    ((decState 0 7 [0x41] 0).dec.status = .run ∧ (decState 0 7 [0x41] 0).dec.acc ≠ [] ∧
      utf8DecodeOne (decState 0 7 [0x41] 0).dec.acc = some 0x41) ∧
    ((decState 0 7 [0xE0] 0).dec.status = .run ∧ (decState 0 7 [0xE0] 0).dec.acc ≠ [] ∧
      utf8DecodeOne (decState 0 7 [0xE0] 0).dec.acc = none) := by decide

theorem witness_NonetContExtendsTheRun :
    ((decState 0 7 [] 0).dec.status = .run ∧ (decState 0 7 [] 0).dec.alen = 0) ∧
    ((decState 0 4 [0xF0, 0x9F, 0x98, 0x80] 0).dec.status = .run ∧
      (decState 0 4 [0xF0, 0x9F, 0x98, 0x80] 0).dec.alen = 4) ∧
    ((decState 0 7 [0xC3] 0).dec.status = .run ∧ 1 ≤ (decState 0 7 [0xC3] 0).dec.alen) ∧
    (decState 0 5 [0xF0, 0x9F, 0x98] 0).dec.alen ≤ 3 := by decide

theorem witness_NamedStatesFollowTheTable :
    (decState 0 7 [] 0).dec.namedState = .awaitingStart ∧
    ((decState 0 7 [0x41] 0).dec.namedState = .accumulating [0x41] ∧
      utf8DecodeOne [0x41] = some 0x41 ∧ [(0x41 : Byte)].length < 4) ∧
    ((decState 0 4 [0xC0, 0x80, 0x80, 0x80] 0).dec.namedState =
        .accumulating [0xC0, 0x80, 0x80, 0x80] ∧
      utf8DecodeOne [0xC0, 0x80, 0x80, 0x80] = none ∧
      [(0xC0 : Byte), 0x80, 0x80, 0x80].length = 4) ∧
    (decState 0 7 [] 0x06).dec.namedState = .fault ∧
    (.nonetCont 0x80 : Instr) ∈ [Instr.nonetStart 0x80, .nonetCont 0x80, .decPut 0x80] ∧
    next? (exec (.nonetCont 0x80) (decState 0 7 [0x41] 0)) = some (decState 0 7 [0x41, 0x80] 0) := by
  decide

/-- For DecPutInFaultDoesNothing and DecEndInFaultReportsTheFirstError. -/
theorem witness_dec_fault :
    ({ decState 0 7 [] 0x06 with pending := [.decCmd (0#1 ++ 0x20#8)] } : State).dec.status = .fault ∧
    ({ decState 0 7 [] 0x06 with pending := [.decCmd (0#1 ++ 0x20#8)] } : State).pending =
      .decCmd (0#1 ++ 0x20#8) :: [] := ⟨by decide, rfl⟩

theorem witness_DecPutExecutesTheCompletedNonet :
    (decState 0 7 [] 0x06).dec.status = .fault ∧
    ((decState 0 0 [] 0).dec.status = .run ∧ (unpackStep 0 0 0x20).nonet = none) ∧
    ((decState 0x20 8 [] 0).dec.status = .run ∧
      (unpackStep 0x20 8 0xB0).nonet = some 0x041) := by decide

/-- The nonet `0x041` behind eight residue bits begins a run, with nothing held; the nonet `0x0C3`
behind seven ends the run `[41]`; the nonet `0x1A9` behind six extends the run `[C3]` (the buffer
`20 B0 F5 20` of `"Aé"`, 41_decoder.md R131). -/
theorem witness_DecPutCompletes :
    ((decState 0 0 [] 0).dec.status = .run ∧ (decState 0 0 [] 0).dec.rcnt = 0) ∧
    ((0x20 : Byte).toNat < 2 ^ 8 ∧ (0x30 : Byte).toNat < 2 ^ 7 ∧
      (decState 0x20 8 [] 0).dec.residueBits ++ byteBits 0xB0 =
        nonetBits 0x041 ++ msbBits 7 0x30 ∧ nonetFlag 0x041 = false ∧
      (decState 0x20 8 [] 0).dec.acc = []) ∧
    ((0x30 : Byte).toNat < 2 ^ 7 ∧ (0x35 : Byte).toNat < 2 ^ 6 ∧
      (decState 0x30 7 [0x41] 0).dec.residueBits ++ byteBits 0xF5 =
        nonetBits 0x0C3 ++ msbBits 6 0x35 ∧ nonetFlag 0x0C3 = false ∧
      utf8DecodeOne (decState 0x30 7 [0x41] 0).dec.acc = some 0x41) ∧
    ((0x35 : Byte).toNat < 2 ^ 6 ∧ (0 : Byte).toNat < 2 ^ 5 ∧
      (decState 0x35 6 [0xC3] 0).dec.residueBits ++ byteBits 0x20 =
        nonetBits 0x1A9 ++ msbBits 5 0 ∧ nonetFlag 0x1A9 = true ∧
      1 ≤ (decState 0x35 6 [0xC3] 0).dec.alen ∧ (decState 0x35 6 [0xC3] 0).dec.alen ≤ 3) := by decide

theorem witness_DecEndChecksReportsAndResets :
    ((decState 0 7 [0xE0] 0).dec.status = .run ∧ (decState 0 7 [0xE0] 0).dec.acc ≠ [] ∧
      utf8DecodeOne (decState 0 7 [0xE0] 0).dec.acc = none) ∧
    ((decState 0 8 [] 0).dec.status = .run ∧ (decState 0 8 [] 0).dec.acc = [] ∧
      (decState 0 8 [] 0).dec.rcnt = 8) ∧
    (utf8DecodeOne (decState 1 7 [0x41] 0).dec.acc = some 0x41 ∧
      (decState 1 7 [0x41] 0).dec.rcnt ≠ 8 ∧ (decState 1 7 [0x41] 0).dec.rcnt ≠ 0 ∧
      (decState 1 7 [0x41] 0).dec.res ≠ 0) ∧
    (utf8DecodeOne (decState 0 7 [0x41] 0).dec.acc = some 0x41 ∧
      (decState 0 7 [0x41] 0).dec.rcnt ≠ 8 ∧ (decState 0 7 [0x41] 0).dec.res = 0) ∧
    (decState 0 0 [] 0).dec.rcnt = 0 ∧ (decState 0 7 [] 0x06).dec.status = .fault := by decide

/-- The invariant holds of a state in mid-transaction on both units (for the statements that assume
`DecInv` or `Inv`), and a step from it answers a next state. -/
theorem witness_InvariantIsKeptByEveryStep :
    let s : State := ⟨⟨0x7F, 7, .run, 0⟩, ⟨0, 4, [0xF0, 0x9F, 0x98, 0x80], .run, 0⟩,
      [.decCmd 0x100], [.byte 0x20, .done 0x05], [.char 0x41, .done 0x12]⟩
    Inv s ∧ next? (step s) = some ⟨⟨0x7F, 7, .run, 0⟩, DecUnit.reset, [], [.byte 0x20, .done 0x05],
      [.char 0x41, .done 0x12, .char 0x1F600, .done 0]⟩ := by
  intro s
  refine ⟨⟨⟨by decide, by decide, by decide⟩,
    ⟨by decide, by decide, by decide, by decide, by decide, by decide⟩, ?_, ?_⟩, by decide⟩ <;>
    intro t ht <;> simp [s] at ht <;> rcases ht with rfl | rfl <;>
    simp [EncTokenOk, DecTokenOk] <;> decide

theorem witness_FaultIsSticky :
    let e : State := { encState 1 1 0x05 with pending := [.encCmd 0x000041] }
    let d : State := { decState 0 7 [] 0x06 with pending := [.decCmd 0x0FF] }
    (e.pending = .encCmd 0x000041 :: [] ∧ e.enc.status = .fault ∧
      decodeEncCmd 0x000041 = .encPut 0x41 ∧ Event.encCmd 0x000041 ≠ .reset .enc ∧
      decodeEncCmd 0x000041 ≠ .encEnd) ∧
    (d.pending = .decCmd 0x0FF :: [] ∧ d.dec.status = .fault ∧
      decodeDecCmd 0x0FF = .decPut 0xFF ∧ Event.decCmd 0x0FF ≠ .reset .dec ∧
      decodeDecCmd 0x0FF ≠ .decEnd) := by decide

theorem witness_UnitsShareNoState :
    (Instr.encEnd.format = .encCmd ∧ (encState 0 0 0).enc = (decState 0 7 [] 0x06).enc) ∧
    (Instr.decEnd.format ≠ .encCmd ∧ (decState 0 0 [] 0).dec = (encState 1 1 0x05).dec) := by decide

/-- For the statements over a text or a buffer begun in the reset state. -/
theorem witness_reset_units :
    State.reset.enc = EncUnit.reset ∧ State.reset.dec = DecUnit.reset ∧ State.reset.encOut = [] ∧
    State.reset.decOut = [] ∧ (∀ c ∈ [(0 : CodePoint), 0x7FF, 0x10FFFF], isScalar c = true) ∧
    (0xD800 ∈ [(0x41 : CodePoint), 0xD800] ∧ isScalar 0xD800 = false) :=
  ⟨rfl, rfl, rfl, rfl, by simp; decide, by decide⟩

/-- The five lines of the closed form of `decode`: a leading continuation (`C0 30`), a run that is no
character (`60 00`: the run `[C0]`), a trailing group of eight bits, one not all zero (`20 81`), and
a good buffer (`20 80`). -/
theorem witness_DecodeClosedForm :
    (splitRuns (completeNonets (unpack [0xC0, 0x30]))).1 ≠ [] ∧
    ((splitRuns (completeNonets (unpack [0x60, 0x00]))).1 = [] ∧
      [0xC0] ∈ (splitRuns (completeNonets (unpack [0x60, 0x00]))).2 ∧ utf8DecodeOne [0xC0] = none) ∧
    ((splitRuns (completeNonets (unpack [0x00]))).2.map utf8DecodeOne = [].map some ∧
      (trailingGroup (unpack [0x00])).length = 8) ∧
    ((splitRuns (completeNonets (unpack [0x20, 0x81]))).2.map utf8DecodeOne = [0x41].map some ∧
      (trailingGroup (unpack [0x20, 0x81])).length ≠ 8 ∧ true ∈ trailingGroup (unpack [0x20, 0x81])) ∧
    ((splitRuns (completeNonets (unpack [0x20, 0x80]))).2.map utf8DecodeOne = [0x41].map some ∧
      (trailingGroup (unpack [0x20, 0x80])).length ≠ 8 ∧
      true ∉ trailingGroup (unpack [0x20, 0x80])) := by decide

/-- For LengthLaw, DecodeIsTheExactInverse and ConcatenationAtAByteBoundary: the empty text and one of
eight nonets, which fill their bytes, and `"A"`, which does not (95_test_vectors.md S2). -/
theorem witness_encodings :
    encodeText [] = some (.ok []) ∧ (textNonets []).length % 8 = 0 ∧
    encodeText [0x41] = some (.ok [0x20, 0x80]) ∧
    encodeText [0x1F600, 0x1F600] =
      some (.ok [0x78, 0x67, 0xF3, 0x18, 0x07, 0x86, 0x7F, 0x31, 0x80]) ∧
    (textNonets [0x1F600, 0x1F600]).length % 8 = 0 := by decide

theorem witness_LeadingContinuationIsRejected :
    (0x80 : Byte).getLsbD 7 = true ∧ (0xFF : Byte).getLsbD 7 = true := by decide

theorem witness_BadTrailingGroupIsRejected :
    [(0x00 : Byte)].length % 9 = 1 ∧ true ∈ trailingGroup (unpack [0x20, 0x81]) := by decide

theorem witness_LengthsOfBuffers :
    [(0x20 : Byte), 0x80].length % 9 ≠ 1 ∧ ([] : List Byte).length % 9 ≠ 1 := by decide

/-- For DecoderResidueCountsTheBytes: one byte put from the reset state leaves the unit in `RUN`. -/
theorem witness_DecoderResidueCountsTheBytes :
    next? (exec (.decPut 0x20) State.reset) = some (decState 0x20 8 [] 0) ∧
    (decState 0x20 8 [] 0).dec.status = .run := by decide

end Sys2Proof.Tests
end

section
/-!
PROOFS for 00_scope.md. A word that a command port presents is never too wide for `decode`, so the
instruction of a step is the one `decode` reads from the word.
-/

namespace Sys2Proof.Machine

/-- A word at the encoder's port fits, and `decode` reads the encoder's command from it. -/
@[simp] theorem decode_encCmd_toNat (w : Word22) :
    decode ⟨.encCmd, w.toNat⟩ = .ok (decodeEncCmd w) := by
  have hfit : (RawWord.mk .encCmd w.toNat).wf = true := decide_eq_true w.isLt
  calc decode ⟨.encCmd, w.toNat⟩ = .ok (decodeEncCmd (BitVec.ofNat 22 w.toNat)) := if_pos hfit
    _ = .ok (decodeEncCmd w) := by rw [BitVec.ofNat_toNat, BitVec.setWidth_eq]

/-- A word at the decoder's port fits, and `decode` reads the decoder's command from it. -/
@[simp] theorem decode_decCmd_toNat (w : Word9) :
    decode ⟨.decCmd, w.toNat⟩ = .ok (decodeDecCmd w) := by
  have hfit : (RawWord.mk .decCmd w.toNat).wf = true := decide_eq_true w.isLt
  calc decode ⟨.decCmd, w.toNat⟩ = .ok (decodeDecCmd (BitVec.ofNat 9 w.toNat)) := if_pos hfit
    _ = .ok (decodeDecCmd w) := by rw [BitVec.ofNat_toNat, BitVec.setWidth_eq]

/-- Settles O6: the first event is taken and consumed, and what is executed after it is the
instruction `decode` reads from the word presented. -/
theorem stepRunsTheDecodedCommand : Obligations.StepRunsTheDecodedCommand := by
  intro s rest i
  constructor
  · intro w hpending hdecode
    have hi : decodeEncCmd w = i := Except.ok.inj ((decode_encCmd_toNat w).symm.trans hdecode)
    rw [step_of_pending hpending, ← hi]
    rfl
  · intro w hpending hdecode
    have hi : decodeDecCmd w = i := Except.ok.inj ((decode_decCmd_toNat w).symm.trans hdecode)
    rw [step_of_pending hpending, ← hi]
    rfl

end Sys2Proof.Machine
end

section
/-!
PROOFS for 10_state.md. Each instruction's effect on its own unit is said once, as a relation between
the unit's registers before and after and the tokens emitted, together with the fact that the next
state is made from the unit's registers alone: independence of the units, the invariant, the counts
of R28 and R35 and the reset state after `END` are all read off these effects.
-/

namespace Sys2Proof.Machine

open Sys2Proof.Safety

/-! ### What an instruction does to one unit -/

/-- The state after the encoder alone moved: its registers replaced, tokens appended to its stream. -/
def encAfter (u : EncUnit) (toks : List EncToken) (s : State) : State :=
  { s with enc := u, encOut := s.encOut ++ toks }

@[simp] theorem encAfter_enc (u : EncUnit) (toks : List EncToken) (s : State) :
    (encAfter u toks s).enc = u := rfl
@[simp] theorem encAfter_dec (u : EncUnit) (toks : List EncToken) (s : State) :
    (encAfter u toks s).dec = s.dec := rfl
@[simp] theorem encAfter_pending (u : EncUnit) (toks : List EncToken) (s : State) :
    (encAfter u toks s).pending = s.pending := rfl
@[simp] theorem encAfter_encOut (u : EncUnit) (toks : List EncToken) (s : State) :
    (encAfter u toks s).encOut = s.encOut ++ toks := rfl
@[simp] theorem encAfter_decOut (u : EncUnit) (toks : List EncToken) (s : State) :
    (encAfter u toks s).decOut = s.decOut := rfl

/-- The state after the decoder alone moved: its registers replaced, tokens appended to its stream. -/
def decAfter (u : DecUnit) (toks : List DecToken) (s : State) : State :=
  { s with dec := u, decOut := s.decOut ++ toks }

@[simp] theorem decAfter_enc (u : DecUnit) (toks : List DecToken) (s : State) :
    (decAfter u toks s).enc = s.enc := rfl
@[simp] theorem decAfter_dec (u : DecUnit) (toks : List DecToken) (s : State) :
    (decAfter u toks s).dec = u := rfl
@[simp] theorem decAfter_pending (u : DecUnit) (toks : List DecToken) (s : State) :
    (decAfter u toks s).pending = s.pending := rfl
@[simp] theorem decAfter_encOut (u : DecUnit) (toks : List DecToken) (s : State) :
    (decAfter u toks s).encOut = s.encOut := rfl
@[simp] theorem decAfter_decOut (u : DecUnit) (toks : List DecToken) (s : State) :
    (decAfter u toks s).decOut = s.decOut ++ toks := rfl

/-- Two moves of the decoder are one, with the tokens of both. -/
@[simp] theorem decAfter_decAfter (u v : DecUnit) (ts us : List DecToken) (s : State) :
    decAfter v us (decAfter u ts s) = decAfter v (ts ++ us) s := by
  simp [decAfter]

/-- The decoder's registers with an error recorded. -/
def DecUnit.raised (e : ErrorCause) (u : DecUnit) : DecUnit :=
  { u with status := .fault, cause := e.code }

theorem emitDec_eq_decAfter (toks : List DecToken) (s : State) :
    emitDec toks s = decAfter s.dec toks s := rfl

theorem setAcc_eq_decAfter (a : List Byte) (s : State) :
    setAcc a s = decAfter { s.dec with acc := a } [] s := by
  simp [setAcc, decAfter]

theorem setDecResidue_eq_decAfter (r c : Nat) (s : State) :
    setDecResidue r c s =
      decAfter { s.dec with res := BitVec.ofNat 8 r, rcnt := BitVec.ofNat 4 c } [] s := by
  simp [setDecResidue, decAfter]

theorem raise_dec_eq_decAfter (e : ErrorCause) (s : State) :
    raise .dec e s = decAfter (s.dec.raised e) [] s := by
  simp [raise, decAfter, DecUnit.raised]

/-- The instruction takes the encoder from `u` to `u'` and emits `toks`, whatever else the state
holds, and leaves all else as it is. -/
def EncGoes (i : Instr) (u u' : EncUnit) (toks : List EncToken) : Prop :=
  ∀ s : State, s.enc = u → exec i s = .next (encAfter u' toks s)

/-- The instruction takes the decoder from `u` to `u'` and emits `toks`, whatever else the state
holds, and leaves all else as it is. -/
def DecGoes (i : Instr) (u u' : DecUnit) (toks : List DecToken) : Prop :=
  ∀ s : State, s.dec = u → exec i s = .next (decAfter u' toks s)

/-- As `DecGoes`, of an operation within a step. -/
def DecMoves (f : State → State) (u u' : DecUnit) (toks : List DecToken) : Prop :=
  ∀ s : State, s.dec = u → f s = decAfter u' toks s

/-! ### The encoder's commands -/

/-- The three things `ENC.PUT cp` can do to the encoder's registers and stream (40_encoder.md R110
to R112). -/
inductive EncPutEffect (cp : CodePoint) (u : EncUnit) : EncUnit → List EncToken → Prop
  /-- In `FAULT`: nothing. -/
  | ignored (hfault : u.status = .fault) : EncPutEffect cp u u []
  /-- No scalar value: `NOT_SCALAR` is recorded. -/
  | raised (hrun : u.status = .run) (hcp : isScalar cp = false) :
      EncPutEffect cp u { u with status := .fault, cause := ErrorCause.notScalar.code } []
  /-- The nonets of the character are packed behind the residue. -/
  | packed (p : Packed) (hp : p = packNonets u.res.toNat u.rcnt.toNat (charNonets cp))
      (hrun : u.status = .run) (hcp : isScalar cp = true) :
      EncPutEffect cp u { u with res := BitVec.ofNat 7 p.res, rcnt := BitVec.ofNat 3 p.cnt }
        (p.bytes.map .byte)

theorem encPut_effect (cp : CodePoint) (u : EncUnit) :
    ∃ u' toks, EncPutEffect cp u u' toks ∧ EncGoes (.encPut cp) u u' toks := by
  cases hst : u.status with
  | fault =>
    refine ⟨u, [], .ignored hst, fun s hs => ?_⟩
    subst hs
    simp [exec, execEncPut, hst, encAfter]
  | run =>
    cases hcp : isScalar cp with
    | false =>
      refine ⟨_, _, .raised hst hcp, fun s hs => ?_⟩
      subst hs
      simp [exec, execEncPut, hst, hcp, encAfter, raise]
    | true =>
      refine ⟨_, _, .packed _ rfl hst hcp, fun s hs => ?_⟩
      subst hs
      simp [exec, execEncPut, hst, hcp, encAfter, setEncResidue, emitEnc]

theorem encEnd_goes (u : EncUnit) : EncGoes .encEnd u EncUnit.reset (encEndTokens u) := by
  intro s hs
  subst hs
  rfl

/-! ### `flush` and the nonets -/

/-- The three things a conditional flush can do, for a rest of the step that takes the registers from
`u` to `v` (41_decoder.md R135, R141, R150). -/
inductive FlushEffect (u v : DecUnit) : DecUnit → List DecToken → Prop
  /-- Nothing is held. -/
  | empty (hacc : u.acc = []) : FlushEffect u v v []
  /-- The run held is one character, which is emitted. -/
  | character (cp : CodePoint) (hcp : utf8DecodeOne u.acc = some cp) :
      FlushEffect u v v [.char cp]
  /-- The run held is none: `BAD_RUN` is recorded and the rest abandoned. -/
  | badRun : FlushEffect u v (u.raised .badRun) []

theorem flushIfAny_effect {rest : State → State} {u v : DecUnit} (hrest : DecMoves rest u v []) :
    ∃ u' toks, FlushEffect u v u' toks ∧ DecMoves (flushIfAny rest) u u' toks := by
  by_cases hacc : u.acc = []
  · refine ⟨_, _, .empty hacc, fun s hs => ?_⟩
    rw [← hrest s hs]
    simp [flushIfAny, hs, hacc]
  · have hflush : ∀ s : State, s.dec = u → flushIfAny rest s = flushThen rest s := fun s hs =>
      if_pos (by simpa [hs] using List.length_pos_iff.mpr hacc)
    cases hcp : utf8DecodeOne u.acc with
    | some cp =>
      refine ⟨_, _, .character cp hcp, fun s hs => ?_⟩
      rw [hflush s hs, flushThen_of_some (hs ▸ hcp), hrest (emitDec [.char cp] s) hs,
        emitDec_eq_decAfter, decAfter_decAfter, List.append_nil]
    | none =>
      refine ⟨_, _, .badRun, fun s hs => ?_⟩
      rw [hflush s hs, flushThen_of_none (hs ▸ hcp), raise_dec_eq_decAfter, hs]

/-- What executing a nonet can do to the decoder's registers and stream (41_decoder.md R135 to
R137, R146). -/
inductive NonetEffect (u : DecUnit) : DecUnit → List DecToken → Prop
  /-- A start nonet flushes the run held and begins a run. -/
  | start (d : Byte) {u' : DecUnit} {toks : List DecToken}
      (hflush : FlushEffect u { u with acc := [d] } u' toks) : NonetEffect u u' toks
  /-- A continuation nonet with nothing held. -/
  | leadingCont : NonetEffect u (u.raised .leadingCont) []
  /-- A continuation nonet with a full accumulator. -/
  | badRun : NonetEffect u (u.raised .badRun) []
  /-- A continuation nonet extends the run held. -/
  | extended (d : Byte) (hlen : u.acc.length ≠ Config.runMax) :
      NonetEffect u { u with acc := u.acc ++ [d] } []

theorem nonetStart_effect (d : Byte) (u : DecUnit) :
    ∃ u' toks, NonetEffect u u' toks ∧ DecGoes (.nonetStart d) u u' toks := by
  have hset : DecMoves (setAcc [d]) u { u with acc := [d] } [] := fun s hs =>
    hs ▸ setAcc_eq_decAfter [d] s
  obtain ⟨u', toks, heff, hmoves⟩ := flushIfAny_effect hset
  exact ⟨u', toks, .start d heff, fun s hs => congrArg Host.Outcome.next (hmoves s hs)⟩

theorem nonetCont_effect (d : Byte) (u : DecUnit) :
    ∃ u' toks, NonetEffect u u' toks ∧ DecGoes (.nonetCont d) u u' toks := by
  by_cases h0 : u.acc.length = 0
  · refine ⟨_, _, .leadingCont, fun s hs => ?_⟩
    simp [exec, execNonetCont, hs, h0, raise_dec_eq_decAfter]
  · by_cases h4 : u.acc.length = Config.runMax
    · refine ⟨_, _, .badRun, fun s hs => ?_⟩
      simp [exec, execNonetCont, hs, h4, raise_dec_eq_decAfter]
    · refine ⟨_, _, .extended d h4, fun s hs => ?_⟩
      simp only [exec, execNonetCont, DecUnit.alen_eq, hs, if_neg h0, if_neg h4,
        setAcc_eq_decAfter]

theorem decodeNonet_effect (n : Nonet) (u : DecUnit) :
    ∃ u' toks, NonetEffect u u' toks ∧ DecGoes (decodeNonet n) u u' toks := by
  unfold decodeNonet
  split
  · exact nonetCont_effect _ u
  · exact nonetStart_effect _ u

/-- No nonet changes the length of the residue. -/
theorem NonetEffect.rcnt_eq {u u' : DecUnit} {toks : List DecToken} (h : NonetEffect u u' toks) :
    u'.rcnt = u.rcnt := by
  cases h with
  | start d hflush => cases hflush <;> rfl
  | leadingCont => rfl
  | badRun => rfl
  | extended d hlen => rfl

/-- A nonet that does not fault leaves a run held (10_state.md R36). -/
theorem NonetEffect.acc_ne_nil {u u' : DecUnit} {toks : List DecToken} (h : NonetEffect u u' toks)
    (hrun : u'.status = .run) : u'.acc ≠ [] := by
  cases h with
  | start d hflush =>
    cases hflush with
    | empty => simp
    | character => simp
    | badRun => cases hrun
  | leadingCont => cases hrun
  | badRun => cases hrun
  | extended d hlen => simp

/-! ### The decoder's commands -/

/-- The three things `DEC.PUT b` can do to the decoder's registers and stream (41_decoder.md R130 to
R132). -/
inductive DecPutEffect (b : Byte) (u : DecUnit) : DecUnit → List DecToken → Prop
  /-- In `FAULT`: nothing. -/
  | ignored (hfault : u.status = .fault) : DecPutEffect b u u []
  /-- Behind an empty residue the byte becomes the residue. -/
  | buffered (hrun : u.status = .run) (hcnt : u.rcnt = 0) :
      DecPutEffect b u { u with res := b, rcnt := 8 } []
  /-- Behind a residue a nonet is completed, and executed with the residue already advanced. -/
  | completed (r : BitVec 8) (c : BitVec 4) {u' : DecUnit} {toks : List DecToken}
      (hrun : u.status = .run) (hcnt : u.rcnt.toNat = c.toNat + 1) (hres : r.toNat < 2 ^ c.toNat)
      (hnonet : NonetEffect { u with res := r, rcnt := c } u' toks) : DecPutEffect b u u' toks

theorem decPut_effect (b : Byte) (u : DecUnit) :
    ∃ u' toks, DecPutEffect b u u' toks ∧ DecGoes (.decPut b) u u' toks := by
  cases hst : u.status with
  | fault =>
    refine ⟨u, [], .ignored hst, fun s hs => ?_⟩
    subst hs
    simp [exec, execDecPut, hst, decAfter]
  | run =>
    cases hcnt : u.rcnt.toNat with
    | zero =>
      refine ⟨_, _, .buffered hst (BitVec.eq_of_toNat_eq hcnt), fun s hs => ?_⟩
      have hres : BitVec.ofNat 8 (u.res.toNat * 256 + b.toNat) = b :=
        BitVec.eq_of_toNat_eq (by rw [BitVec.toNat_ofNat]; omega)
      simp only [exec, execDecPut, hs, hst, hcnt, unpackStep_zero, setDecResidue_eq_decAfter, hres]
      rfl
    | succ c =>
      have hc : c < 2 ^ 4 := by omega
      have hcnt' : u.rcnt.toNat = (BitVec.ofNat 4 c).toNat + 1 := by
        rw [BitVec.toNat_ofNat, Nat.mod_eq_of_lt hc, hcnt]
      have hres : (BitVec.ofNat 8 ((u.res.toNat * 256 + b.toNat) % 2 ^ c)).toNat
          < 2 ^ (BitVec.ofNat 4 c).toNat := by
        rw [BitVec.toNat_ofNat, BitVec.toNat_ofNat, Nat.mod_eq_of_lt hc]
        exact (Nat.mod_le _ _).trans_lt (Nat.mod_lt _ (Nat.two_pow_pos c))
      obtain ⟨u', toks, heff, hgoes⟩ := decodeNonet_effect
        (BitVec.ofNat 9 ((u.res.toNat * 256 + b.toNat) / 2 ^ c)) _
      refine ⟨u', toks, .completed _ _ hst hcnt' hres heff, fun s hs => ?_⟩
      simp only [exec, execDecPut, hs, hst, hcnt, unpackStep_succ]
      rw [executeNonet_eq_exec, setDecResidue_eq_decAfter, hs, hgoes _ rfl, decAfter_decAfter,
        List.nil_append]

/-- The residue's length steps 0, 8, 7, …, 1, 0 with each byte put in `RUN` (10_state.md R35 (c)). -/
theorem DecPutEffect.rcnt_eq {b : Byte} {u u' : DecUnit} {toks : List DecToken}
    (h : DecPutEffect b u u' toks) (hrun : u.status = .run) :
    u'.rcnt.toNat = if u.rcnt.toNat = 0 then 8 else u.rcnt.toNat - 1 := by
  cases h with
  | ignored hfault => rw [hrun] at hfault; cases hfault
  | buffered _ hcnt => simp [hcnt]
  | completed r c _ hcnt _ hnonet => rw [hnonet.rcnt_eq, hcnt]; simp

/-- `FAULT` outlives `DEC.PUT`, so a unit in `RUN` after it was in `RUN` before (10_state.md R33). -/
theorem DecPutEffect.run_before {b : Byte} {u u' : DecUnit} {toks : List DecToken}
    (h : DecPutEffect b u u' toks) (hrun : u'.status = .run) : u.status = .run := by
  cases h with
  | ignored => exact hrun
  | buffered hst => exact hst
  | completed _ _ hst => exact hst

/-- The trailing group's checks leave the cause as it was or record one of their own two errors. -/
theorem checkTrailing_effect (u : DecUnit) :
    ∃ u', DecMoves checkTrailing u u' [] ∧
      (u' = u ∨ u' = u.raised .badLength ∨ u' = u.raised .badPad) := by
  by_cases h8 : u.rcnt = 8
  · refine ⟨_, fun s hs => ?_, .inr (.inl rfl)⟩
    simp only [checkTrailing, hs, if_pos h8, raise_dec_eq_decAfter]
  · by_cases hpad : 1 ≤ u.rcnt.toNat ∧ u.res ≠ 0
    · refine ⟨_, fun s hs => ?_, .inr (.inr rfl)⟩
      simp only [checkTrailing, hs, if_neg h8, if_pos hpad, raise_dec_eq_decAfter]
    · refine ⟨_, fun s hs => ?_, .inl rfl⟩
      subst hs
      simp only [checkTrailing, if_neg h8, if_neg hpad, decAfter, List.append_nil]

/-- What the checks of `DEC.END` can do: the run is flushed and the trailing group judged
(41_decoder.md R150). -/
theorem decEndChecks_effect (u : DecUnit) :
    ∃ v u' chs, (v = u ∨ v = u.raised .badLength ∨ v = u.raised .badPad) ∧
      FlushEffect u v u' chs ∧ DecMoves decEndChecks u u' chs := by
  obtain ⟨v, hmoves, hv⟩ := checkTrailing_effect u
  obtain ⟨u', chs, heff, hflush⟩ := flushIfAny_effect hmoves
  exact ⟨v, u', chs, hv, heff, hflush⟩

/-- The report of `DEC.END` after checks that move the decoder alone. -/
theorem decEndReport_decAfter (u : DecUnit) (chs : List DecToken) (s : State) :
    decEndReport (decAfter u chs s) = decAfter DecUnit.reset (chs ++ [.done u.cause]) s := by
  simp [decEndReport, returnToReset, emitDec, decAfter]

/-- The tokens of `DEC.END`: in `RUN` the checks' and then the cause they leave, in `FAULT` the cause
recorded before (41_decoder.md R150, R151). -/
inductive DecEndTokens (u : DecUnit) : List DecToken → Prop
  /-- In `RUN`: what the checks emit, and the cause they leave. -/
  | checked {v u' : DecUnit} {chs : List DecToken} (hrun : u.status = .run)
      (hv : v = u ∨ v = u.raised .badLength ∨ v = u.raised .badPad)
      (hflush : FlushEffect u v u' chs) : DecEndTokens u (chs ++ [.done u'.cause])
  /-- In `FAULT`: no check is made. -/
  | reported (hfault : u.status = .fault) : DecEndTokens u [.done u.cause]

theorem decEnd_effect (u : DecUnit) :
    ∃ toks, DecEndTokens u toks ∧ DecGoes .decEnd u DecUnit.reset toks := by
  cases hst : u.status with
  | run =>
    obtain ⟨v, u', chs, hv, heff, hmoves⟩ := decEndChecks_effect u
    refine ⟨_, .checked hst hv heff, fun s hs => ?_⟩
    simp only [exec, execDecEnd, hs, hst, hmoves s hs, decEndReport_decAfter]
  | fault =>
    refine ⟨_, .reported hst, fun s hs => ?_⟩
    subst hs
    simp only [exec, execDecEnd, hst]
    rfl

/-! ### The units are independent (R20) -/

/-- An instruction of the encoder's format moves the encoder alone, by what the encoder holds. -/
theorem encGoes_of_format {i : Instr} (hi : i.format = .encCmd) (u : EncUnit) :
    ∃ u' toks, EncGoes i u u' toks := by
  cases i with
  | encPut cp =>
    obtain ⟨u', toks, -, hgoes⟩ := encPut_effect cp u
    exact ⟨u', toks, hgoes⟩
  | encEnd => exact ⟨_, _, encEnd_goes u⟩
  | decPut b => cases hi
  | decEnd => cases hi
  | nonetStart d => cases hi
  | nonetCont d => cases hi

/-- Any other instruction moves the decoder alone, by what the decoder holds. -/
theorem decGoes_of_format {i : Instr} (hi : i.format ≠ .encCmd) (u : DecUnit) :
    ∃ u' toks, DecGoes i u u' toks := by
  cases i with
  | encPut cp => exact absurd rfl hi
  | encEnd => exact absurd rfl hi
  | decPut b =>
    obtain ⟨u', toks, -, hgoes⟩ := decPut_effect b u
    exact ⟨u', toks, hgoes⟩
  | decEnd =>
    obtain ⟨toks, -, hgoes⟩ := decEnd_effect u
    exact ⟨_, toks, hgoes⟩
  | nonetStart d =>
    obtain ⟨u', toks, -, hgoes⟩ := nonetStart_effect d u
    exact ⟨u', toks, hgoes⟩
  | nonetCont d =>
    obtain ⟨u', toks, -, hgoes⟩ := nonetCont_effect d u
    exact ⟨u', toks, hgoes⟩

/-- Settles O33: the registers and tokens that the effect names are the same for every state that
agrees on the unit. -/
theorem unitsShareNoState : Obligations.UnitsShareNoState := by
  intro i
  constructor
  · intro hi s s' hs
    obtain ⟨u', toks, hgoes⟩ := encGoes_of_format hi s'.enc
    exact ⟨_, _, toks, hgoes s hs, hgoes s' rfl, rfl, rfl, rfl, rfl, rfl, rfl⟩
  · intro hi s s' hs
    obtain ⟨u', toks, hgoes⟩ := decGoes_of_format hi s'.dec
    exact ⟨_, _, toks, hgoes s hs, hgoes s' rfl, rfl, rfl, rfl, rfl, rfl, rfl⟩

/-! ### The reset state (R41) -/

/-- Settles O9: a reset input writes the reset state, and so does each `END`, whatever it reports. -/
theorem resetStateAfterResetAndAfterEnd : Obligations.ResetStateAfterResetAndAfterEnd := by
  refine ⟨⟨rfl, rfl, rfl⟩, fun s => ⟨?_, ?_, ?_, ?_⟩⟩
  · intro rest hpending
    exact ⟨_, step_of_pending hpending, rfl⟩
  · intro rest hpending
    exact ⟨_, step_of_pending hpending, rfl, rfl⟩
  · exact ⟨_, encEnd_goes s.enc s rfl, rfl⟩
  · obtain ⟨toks, -, hgoes⟩ := decEnd_effect s.dec
    exact ⟨_, hgoes s rfl, rfl, rfl⟩

/-! ### The invariant at reset -/

theorem encInv_reset : EncInv EncUnit.reset := by
  refine ⟨?_, ?_, ?_⟩ <;> decide

theorem decInv_reset : DecInv DecUnit.reset := by
  refine ⟨?_, ?_, ?_, ?_, ?_, ?_⟩ <;> decide

/-- Settles O37: both units are in their reset states and no token has been emitted. -/
theorem invariantHoldsAtReset : Obligations.InvariantHoldsAtReset :=
  ⟨encInv_reset, decInv_reset, by simp, by simp⟩

/-! ### Bits are conserved by packing -/

/-- A nonet packed behind at most seven bits: the bits that come out, as whole bytes and as the new
residue, are the bits that went in. -/
theorem packStep_bits {c : Nat} (hc : c ≤ 7) (r : Nat) (n : Nonet) :
    8 * (packStep r c n).bytes.length + (packStep r c n).cnt = c + 9 ∧
    (packStep r c n).cnt ≤ 7 ∧ (packStep r c n).res < 2 ^ (packStep r c n).cnt := by
  rcases Nat.lt_or_eq_of_le hc with hlt | rfl
  · rw [packStep_of_lt hlt]
    refine ⟨?_, hlt, Nat.mod_lt _ (Nat.two_pow_pos _)⟩
    simp only [List.length_singleton]
    omega
  · rw [packStep_seven]
    simp

/-- Nonets packed behind at most seven bits: the bits that come out are the bits that went in. -/
theorem packNonets_bits (ns : List Nonet) : ∀ {r c : Nat}, c ≤ 7 → r < 2 ^ c →
    8 * (packNonets r c ns).bytes.length + (packNonets r c ns).cnt = c + 9 * ns.length ∧
    (packNonets r c ns).cnt ≤ 7 ∧ (packNonets r c ns).res < 2 ^ (packNonets r c ns).cnt := by
  induction ns with
  | nil =>
    intro r c hc hr
    exact ⟨by simp, hc, hr⟩
  | cons n ns ih =>
    intro r c hc _
    obtain ⟨hbits, hcnt, hres⟩ := packStep_bits hc r n
    obtain ⟨hbits', hcnt', hres'⟩ := ih hcnt hres
    rw [packNonets_cons]
    refine ⟨?_, hcnt', hres'⟩
    simp only [List.length_append, List.length_cons]
    omega

/-- A scalar value put in `RUN`: the unit stays in `RUN` and emits whole bytes, and the bits of these
bytes and of the new residue number those of the old residue and of the character's nonets. -/
theorem EncPutEffect.bits_of_scalar {cp : CodePoint} {u u' : EncUnit} {toks : List EncToken}
    (h : EncPutEffect cp u u' toks) (hrun : u.status = .run) (hcp : isScalar cp = true)
    (hres : u.res.toNat < 2 ^ u.rcnt.toNat) :
    u'.status = .run ∧ ∃ bs : List Byte, toks = bs.map .byte ∧
      8 * bs.length + u'.rcnt.toNat = u.rcnt.toNat + 9 * (charNonets cp).length := by
  cases h with
  | ignored hfault => rw [hrun] at hfault; cases hfault
  | raised _ hns => rw [hcp] at hns; cases hns
  | packed p hp =>
    have hc : u.rcnt.toNat ≤ 7 := by omega
    obtain ⟨hbits, hcnt', -⟩ := packNonets_bits (charNonets cp) hc hres
    rw [← hp] at hbits hcnt'
    refine ⟨hrun, p.bytes, rfl, ?_⟩
    simp only [BitVec.toNat_ofNat]
    omega

/-! ### Every step keeps the invariant -/

theorem EncPutEffect.encInv {cp : CodePoint} {u u' : EncUnit} {toks : List EncToken}
    (h : EncPutEffect cp u u' toks) (hu : EncInv u) : EncInv u' := by
  obtain ⟨hres, hstatus, hcause⟩ := hu
  cases h with
  | ignored => exact ⟨hres, hstatus, hcause⟩
  | raised => exact ⟨hres, ⟨nofun, nofun⟩, fun _ => rfl⟩
  | packed p hp =>
    have hc : u.rcnt.toNat ≤ 7 := by omega
    obtain ⟨-, hcnt', hres'⟩ := packNonets_bits (charNonets cp) hc hres
    rw [← hp] at hcnt' hres'
    refine ⟨?_, hstatus, hcause⟩
    simp only [BitVec.toNat_ofNat]
    rw [Nat.mod_eq_of_lt (a := p.cnt) (by omega)]
    exact (Nat.mod_le _ _).trans_lt hres'

/-- `ENC.PUT` emits whole bytes alone. -/
theorem EncPutEffect.tokenOk {cp : CodePoint} {u u' : EncUnit} {toks : List EncToken}
    (h : EncPutEffect cp u u' toks) : ∀ t ∈ toks, EncTokenOk t := by
  cases h with
  | ignored => simp
  | raised => simp
  | packed p => simp [EncTokenOk]

theorem encEndTokens_ok {u : EncUnit} (hu : EncInv u) : ∀ t ∈ encEndTokens u, EncTokenOk t := by
  obtain ⟨-, -, hcause⟩ := hu
  cases hst : u.status with
  | run =>
    intro t ht
    simp only [encEndTokens, hst, List.mem_append, List.mem_map, List.mem_singleton] at ht
    rcases ht with ⟨b, -, rfl⟩ | rfl
    · trivial
    · exact .inl rfl
  | fault => simp [encEndTokens, hst, EncTokenOk, hcause hst]

/-- A candidate that its range keeps below `0x110000` and off the surrogates is a scalar value. -/
theorem isScalar_of_guardCp {ok : Bool} {n : Nat} {cp : CodePoint} (h : guardCp ok n = some cp)
    (hn : ok = true → n ≤ 0x10FFFF ∧ ¬(0xD800 ≤ n ∧ n ≤ 0xDFFF)) : isScalar cp = true := by
  cases ok with
  | false => cases h
  | true =>
    obtain ⟨hmax, hsur⟩ := hn rfl
    obtain rfl : BitVec.ofNat 21 n = cp := Option.some.inj h
    have hval : (BitVec.ofNat 21 n).toNat = n := by
      rw [BitVec.toNat_ofNat]
      exact Nat.mod_eq_of_lt (by omega)
    simp only [isScalar, hval, Bool.and_eq_true, Bool.not_eq_true', Bool.and_eq_false_iff,
      decide_eq_true_eq, decide_eq_false_iff_not]
    omega

/-- A run that is one character is a scalar value (41_decoder.md R140, R141). -/
theorem isScalar_of_utf8DecodeOne {bs : List Byte} {cp : CodePoint}
    (h : utf8DecodeOne bs = some cp) : isScalar cp = true := by
  match bs, h with
  | [b0], h => exact isScalar_of_guardCp h (by simp only [decide_eq_true_eq]; omega)
  | [b0, b1], h => exact isScalar_of_guardCp h (by omega)
  | [b0, b1, b2], h =>
    refine isScalar_of_guardCp h fun hok => ?_
    simp only [Bool.and_eq_true, Bool.not_eq_true', Bool.and_eq_false_iff, decide_eq_true_eq,
      decide_eq_false_iff_not] at hok
    omega
  | [b0, b1, b2, b3], h =>
    refine isScalar_of_guardCp h fun hok => ?_
    simp only [Bool.and_eq_true, decide_eq_true_eq] at hok
    omega

/-- A flush emits at most one token, the character of the run held. -/
theorem FlushEffect.tokenOk {u v u' : DecUnit} {toks : List DecToken} (h : FlushEffect u v u' toks) :
    ∀ t ∈ toks, DecTokenOk t := by
  cases h with
  | empty => simp
  | character cp hcp => simpa [DecTokenOk] using isScalar_of_utf8DecodeOne hcp
  | badRun => simp

theorem NonetEffect.tokenOk {u u' : DecUnit} {toks : List DecToken} (h : NonetEffect u u' toks) :
    ∀ t ∈ toks, DecTokenOk t := by
  cases h with
  | start d hflush => exact hflush.tokenOk
  | leadingCont => simp
  | badRun => simp
  | extended => simp

theorem DecPutEffect.tokenOk {b : Byte} {u u' : DecUnit} {toks : List DecToken}
    (h : DecPutEffect b u u' toks) : ∀ t ∈ toks, DecTokenOk t := by
  cases h with
  | ignored => simp
  | buffered => simp
  | completed r c _ _ _ hnonet => exact hnonet.tokenOk

/-- The cause of a unit that keeps the invariant is one that `DONE` may carry. -/
theorem doneOk_of_decInv {u : DecUnit} (hu : DecInv u) : DecTokenOk (.done u.cause) := by
  obtain ⟨-, -, -, hstatus, hcause, -⟩ := hu
  cases hst : u.status with
  | run => exact .inl (hstatus.mp hst)
  | fault =>
    rcases hcause hst with h | h
    · exact .inr (.inl h)
    · exact .inr (.inr (.inl h))

theorem DecEndTokens.tokenOk {u : DecUnit} {toks : List DecToken} (h : DecEndTokens u toks)
    (hu : DecInv u) : ∀ t ∈ toks, DecTokenOk t := by
  have hdone := doneOk_of_decInv hu
  cases h with
  | @checked v u' chs hrun hv hflush =>
    have hvdone : DecTokenOk (.done v.cause) := by
      rcases hv with rfl | rfl | rfl
      · exact hdone
      · exact .inr (.inr (.inr (.inl rfl)))
      · exact .inr (.inr (.inr (.inr rfl)))
    have hlast : DecTokenOk (.done u'.cause) := by
      cases hflush with
      | empty => exact hvdone
      | character => exact hvdone
      | badRun => exact .inr (.inr (.inl rfl))
    intro t ht
    rcases List.mem_append.mp ht with ht | ht
    · exact hflush.tokenOk t ht
    · rwa [List.mem_singleton.mp ht]
  | reported => simpa using hdone

/-- The bounds of the decoder's registers (10_state.md R35 (a), (b), (d)): the part of the invariant
that also holds within a step, between the residue's advance and the nonet. -/
def DecBounds (u : DecUnit) : Prop :=
  u.res.toNat < 2 ^ u.rcnt.toNat ∧ u.rcnt.toNat ≤ 8 ∧ u.acc.length ≤ Config.runMax

/-- An error of a nonet, raised within the bounds, keeps the invariant. -/
theorem DecBounds.decInv_raised {u : DecUnit} (hu : DecBounds u) {e : ErrorCause}
    (he : e = .leadingCont ∨ e = .badRun) : DecInv (u.raised e) := by
  obtain ⟨hres, hcnt, hlen⟩ := hu
  rcases he with rfl | rfl
  · exact ⟨hres, hcnt, hlen, ⟨nofun, nofun⟩, fun _ => .inl rfl, nofun⟩
  · exact ⟨hres, hcnt, hlen, ⟨nofun, nofun⟩, fun _ => .inr rfl, nofun⟩

/-- In `RUN`, with a run held, the bounds are the invariant. -/
theorem DecBounds.decInv_of_held {u : DecUnit} (hu : DecBounds u) (hrun : u.status = .run)
    (hcause : u.cause = 0) (hacc : u.acc ≠ []) : DecInv u := by
  obtain ⟨hres, hcnt, hlen⟩ := hu
  refine ⟨hres, hcnt, hlen, ⟨fun _ => hcause, fun _ => hrun⟩, fun hfault => ?_, fun _ h0 => ?_⟩
  · rw [hrun] at hfault
    cases hfault
  · exact absurd (List.length_eq_zero_iff.mp h0) hacc

/-- A nonet executed in `RUN` within the bounds leads to the invariant. -/
theorem NonetEffect.decInv {u u' : DecUnit} {toks : List DecToken} (h : NonetEffect u u' toks)
    (hu : DecBounds u) (hrun : u.status = .run) (hcause : u.cause = 0) : DecInv u' := by
  obtain ⟨hres, hcnt, hlen⟩ := hu
  cases h with
  | start d hflush =>
    have hbegun : DecInv { u with acc := [d] } :=
      DecBounds.decInv_of_held ⟨hres, hcnt, by simp⟩ hrun hcause (by simp)
    cases hflush with
    | empty => exact hbegun
    | character => exact hbegun
    | badRun => exact DecBounds.decInv_raised ⟨hres, hcnt, hlen⟩ (.inr rfl)
  | leadingCont => exact DecBounds.decInv_raised ⟨hres, hcnt, hlen⟩ (.inl rfl)
  | badRun => exact DecBounds.decInv_raised ⟨hres, hcnt, hlen⟩ (.inr rfl)
  | extended d hne =>
    have hlen' : (u.acc ++ [d]).length ≤ Config.runMax := by
      rw [List.length_append, List.length_singleton]
      omega
    exact DecBounds.decInv_of_held ⟨hres, hcnt, hlen'⟩ hrun hcause (by simp)

theorem DecPutEffect.decInv {b : Byte} {u u' : DecUnit} {toks : List DecToken}
    (h : DecPutEffect b u u' toks) (hu : DecInv u) : DecInv u' := by
  cases h with
  | ignored => exact hu
  | buffered hrun =>
    obtain ⟨-, -, hlen, hstatus, hcause, -⟩ := hu
    exact ⟨b.isLt, by simp, hlen, hstatus, hcause, fun _ _ => .inr rfl⟩
  | completed r c hrun hcnt hres hnonet =>
    obtain ⟨-, hcnt8, hlen, hstatus, -, -⟩ := hu
    exact hnonet.decInv ⟨hres, by simp only; omega, hlen⟩ hrun (hstatus.mp hrun)

theorem inv_encAfter {s : State} (h : Inv s) {u : EncUnit} {toks : List EncToken} (hu : EncInv u)
    (htoks : ∀ t ∈ toks, EncTokenOk t) : Inv (encAfter u toks s) := by
  obtain ⟨-, hdec, hencOut, hdecOut⟩ := h
  exact ⟨hu, hdec, fun t ht => (List.mem_append.mp ht).elim (hencOut t) (htoks t), hdecOut⟩

theorem inv_decAfter {s : State} (h : Inv s) {u : DecUnit} {toks : List DecToken} (hu : DecInv u)
    (htoks : ∀ t ∈ toks, DecTokenOk t) : Inv (decAfter u toks s) := by
  obtain ⟨henc, -, hencOut, hdecOut⟩ := h
  exact ⟨henc, hu, hencOut, fun t ht => (List.mem_append.mp ht).elim (hdecOut t) (htoks t)⟩

theorem inv_returnToReset {s : State} (h : Inv s) (u : UnitId) : Inv (returnToReset u s) := by
  obtain ⟨henc, hdec, hencOut, hdecOut⟩ := h
  cases u with
  | enc => exact ⟨encInv_reset, hdec, hencOut, hdecOut⟩
  | dec => exact ⟨henc, decInv_reset, hencOut, hdecOut⟩

/-- A word at the encoder's port is one of its two commands, and each keeps the invariant. -/
theorem inv_exec_decodeEncCmd {s : State} (h : Inv s) (w : Word22) :
    ∃ t, exec (decodeEncCmd w) s = .next t ∧ Inv t := by
  have ⟨henc, _⟩ := h
  unfold decodeEncCmd
  split
  · exact ⟨_, encEnd_goes s.enc s rfl, inv_encAfter h encInv_reset (encEndTokens_ok henc)⟩
  · obtain ⟨u', toks, heff, hgoes⟩ := encPut_effect (w.extractLsb' 0 21) s.enc
    exact ⟨_, hgoes s rfl, inv_encAfter h (heff.encInv henc) heff.tokenOk⟩

/-- A word at the decoder's port is one of its two commands, and each keeps the invariant. -/
theorem inv_exec_decodeDecCmd {s : State} (h : Inv s) (w : Word9) :
    ∃ t, exec (decodeDecCmd w) s = .next t ∧ Inv t := by
  have ⟨_, hdec, _⟩ := h
  unfold decodeDecCmd
  split
  · obtain ⟨toks, htoks, hgoes⟩ := decEnd_effect s.dec
    exact ⟨_, hgoes s rfl, inv_decAfter h decInv_reset (htoks.tokenOk hdec)⟩
  · obtain ⟨u', toks, heff, hgoes⟩ := decPut_effect (w.extractLsb' 0 8) s.dec
    exact ⟨_, hgoes s rfl, inv_decAfter h (heff.decInv hdec) heff.tokenOk⟩

theorem inv_afterEvent {s : State} (h : Inv s) (e : Event) :
    ∃ t, afterEvent e s = .next t ∧ Inv t := by
  cases e with
  | encCmd w => exact inv_exec_decodeEncCmd h w
  | decCmd w => exact inv_exec_decodeDecCmd h w
  | reset u => exact ⟨_, rfl, inv_returnToReset h u⟩

/-- Settles O36: an idle step changes nothing, and each event's effect keeps the invariant of the
unit it is for. -/
theorem invariantIsKeptByEveryStep : Obligations.InvariantIsKeptByEveryStep := by
  intro s t hinv hstep
  cases hp : s.pending with
  | nil =>
    obtain rfl : s = t := by simpa [step_idle hp] using hstep
    exact hinv
  | cons e rest =>
    have hinv' : Inv { s with pending := rest } := hinv
    obtain ⟨t', ht', hinvt⟩ := inv_afterEvent hinv' e
    rw [step_of_pending hp, ht'] at hstep
    cases hstep
    exact hinvt

/-! ### The counts of R28 (c) and R35 (c), (f) -/

/-- The framing bit 0 above an operand. -/
theorem getLsbD_zero_append {w : Nat} (x : BitVec w) : (0#1 ++ x).getLsbD w = false := by
  rw [BitVec.getLsbD_append]
  simp

/-- The encoder's port word with the framing bit 0 is the `PUT` of the character below it. -/
@[simp] theorem decodeEncCmd_zero_append (cp : CodePoint) :
    decodeEncCmd (0#1 ++ cp) = .encPut cp :=
  (if_neg (Bool.eq_false_iff.mp (getLsbD_zero_append cp))).trans
    (congrArg Instr.encPut BitVec.extractLsb'_append_eq_right)

/-- The decoder's port word with the framing bit 0 is the `PUT` of the byte below it. -/
@[simp] theorem decodeDecCmd_zero_append (b : Byte) : decodeDecCmd (0#1 ++ b) = .decPut b :=
  (if_neg (Bool.eq_false_iff.mp (getLsbD_zero_append b))).trans
    (congrArg Instr.decPut BitVec.extractLsb'_append_eq_right)

theorem runEvents_encPut_cons {c : CodePoint} {s t : State} (evs : List Event)
    (h : exec (.encPut c) s = .next t) :
    runEvents (.encCmd (0#1 ++ c) :: evs) s = runEvents evs t :=
  runEvents_cons evs (by simpa [afterEvent] using h)

theorem runEvents_decPut_cons {b : Byte} {s t : State} (evs : List Event)
    (h : exec (.decPut b) s = .next t) :
    runEvents (.decCmd (0#1 ++ b) :: evs) s = runEvents evs t :=
  runEvents_cons evs (by simpa [afterEvent] using h)

/-- A text of scalar values put to an encoder in `RUN`: it stays in `RUN`, and the bits of the bytes
emitted and of the residue at the end are those of the residue at the start and of the nonets. -/
theorem runEvents_encPut_bits (T : List CodePoint) : ∀ {s : State}, s.enc.status = .run →
    EncInv s.enc → (∀ c ∈ T, isScalar c = true) →
    ∃ (t : State) (bs : List Byte),
      runEvents (T.map fun c => .encCmd (0#1 ++ c)) s = .next t ∧
      t.encOut = s.encOut ++ bs.map .byte ∧ t.enc.status = .run ∧
      8 * bs.length + t.enc.rcnt.toNat = s.enc.rcnt.toNat + 9 * (textNonets T).length := by
  induction T with
  | nil =>
    intro s hrun _ _
    exact ⟨_, [], runEvents_nil s, by simp, hrun, by simp [textNonets]⟩
  | cons c T ih =>
    intro s hrun hinv hT
    obtain ⟨hc, hT⟩ := List.forall_mem_cons.mp hT
    have ⟨hres, _⟩ := hinv
    obtain ⟨u', toks, heff, hgoes⟩ := encPut_effect c s.enc
    obtain ⟨hrun', bs, rfl, hbits⟩ := heff.bits_of_scalar hrun hc hres
    obtain ⟨t, bs', ht, hout, htrun, hbits'⟩ :=
      ih (s := encAfter u' (bs.map .byte) s) hrun' (heff.encInv hinv) hT
    refine ⟨t, bs ++ bs', (runEvents_encPut_cons _ (hgoes s rfl)).trans ht, ?_, htrun, ?_⟩
    · simp [hout]
    · simp only [encAfter_enc] at hbits'
      simp only [List.length_append, textNonets, List.flatMap_cons] at hbits' ⊢
      omega

/-- Settles O38: from an empty residue the bits are those of the nonets, `9k` of them, and the residue
is what whole bytes leave over. -/
theorem encoderResidueCountsTheNonets : Obligations.EncoderResidueCountsTheNonets := by
  intro T s hs hT
  have hinv : EncInv s.enc := hs ▸ encInv_reset
  obtain ⟨t, bs, ht, hout, hrun, hbits⟩ := runEvents_encPut_bits T (by simp [hs]) hinv hT
  have hrcnt : s.enc.rcnt.toNat = 0 := by simp [hs]
  exact ⟨t, bs, ht, hout, hrun, by omega, by omega⟩

/-- The decoder's count after `L` bytes: in `RUN` the residue holds `8L mod 9` bits, and no byte is
held exactly while no nonet is complete (10_state.md R35 (c), (f)). -/
def CountsBytes (L : Nat) (u : DecUnit) : Prop :=
  u.status = .run → u.rcnt.toNat = 8 * L % 9 ∧ (u.acc = [] ↔ 8 * L / 9 = 0)

theorem countsBytes_reset : CountsBytes 0 DecUnit.reset := fun _ => by simp

/-- A byte put in `RUN` brings the length of the residue to the next of its cycle, even when the nonet
that it completes faults. -/
theorem DecPutEffect.rcnt_counts {b : Byte} {u u' : DecUnit} {toks : List DecToken}
    (h : DecPutEffect b u u' toks) {L : Nat} (hL : CountsBytes L u) (hrun : u.status = .run) :
    u'.rcnt.toNat = 8 * (L + 1) % 9 := by
  obtain ⟨hcnt, -⟩ := hL hrun
  rw [h.rcnt_eq hrun, hcnt]
  split <;> omega

theorem DecPutEffect.countsBytes {b : Byte} {u u' : DecUnit} {toks : List DecToken}
    (h : DecPutEffect b u u' toks) {L : Nat} (hL : CountsBytes L u) : CountsBytes (L + 1) u' := by
  intro hrun'
  have hrun := h.run_before hrun'
  refine ⟨h.rcnt_counts hL hrun, ?_⟩
  obtain ⟨hcnt, hacc⟩ := hL hrun
  cases h with
  | ignored hfault => rw [hrun] at hfault; cases hfault
  | buffered _ h0 =>
    have hzero : u.rcnt.toNat = 0 := by simp [h0]
    rw [hacc]
    omega
  | completed r c _ hsucc _ hnonet =>
    have hheld := hnonet.acc_ne_nil hrun'
    have hnonets : 8 * (L + 1) / 9 ≠ 0 := by omega
    exact iff_of_false hheld hnonets

/-- Bytes put to a decoder whose count is right leave it right. -/
theorem runEvents_decPut_counts (B : List Byte) : ∀ {s : State} {L : Nat}, CountsBytes L s.dec →
    ∃ t : State, runEvents (B.map fun b => .decCmd (0#1 ++ b)) s = .next t ∧
      CountsBytes (L + B.length) t.dec := by
  induction B with
  | nil =>
    intro s L hL
    exact ⟨_, runEvents_nil s, hL⟩
  | cons b B ih =>
    intro s L hL
    obtain ⟨u', toks, heff, hgoes⟩ := decPut_effect b s.dec
    obtain ⟨t, ht, hcount⟩ := ih (s := decAfter u' toks s) (heff.countsBytes hL)
    refine ⟨t, (runEvents_decPut_cons _ (hgoes s rfl)).trans ht, ?_⟩
    rwa [List.length_cons, Nat.add_comm B.length, ← Nat.add_assoc]

/-- Settles O39: the count holds of the reset state and every byte put keeps it. -/
theorem decoderResidueCountsTheBytes : Obligations.DecoderResidueCountsTheBytes := by
  intro B s hs
  have h0 : CountsBytes 0 s.dec := hs ▸ countsBytes_reset
  obtain ⟨t, ht, hcount⟩ := runEvents_decPut_counts B h0
  rw [Nat.zero_add] at hcount
  refine ⟨t, ht, fun hrun => ?_, fun b hrun => ?_⟩
  · simpa using hcount hrun
  · obtain ⟨u', toks, heff, hgoes⟩ := decPut_effect b t.dec
    exact ⟨_, hgoes t rfl, heff.rcnt_counts hcount hrun⟩

end Sys2Proof.Machine
end

section
/-!
PROOFS for 20_memory.md. The tokens of a step are read off the effects of the commands; the
interleaving law is one induction over the events, for a run and the same run with one unit's events
alone; a stream is cut into whole bytes and a short rest, which is how `pack` treats it; and the
lengths of encodings come from the bits counted by the encoder.
-/

namespace Sys2Proof.Machine

open Sys2Proof.Safety

/-! ### The tokens of a step (R57) -/

theorem utf8_length_bounds (cp : CodePoint) : 1 ≤ (utf8 cp).length ∧ (utf8 cp).length ≤ 4 := by
  simp only [utf8]
  split
  · simp
  · split
    · simp
    · split <;> simp

@[simp] theorem charNonets_length (cp : CodePoint) : (charNonets cp).length = (utf8 cp).length := by
  simp [charNonets]

/-- Nonets packed behind any residue, whether or not its value fits its length: the first of them
leaves a residue that fits, and from there on the bits are conserved. -/
theorem packNonets_cons_bits (n : Nonet) (ns : List Nonet) {c : Nat} (hc : c ≤ 7) (r : Nat) :
    8 * (packNonets r c (n :: ns)).bytes.length + (packNonets r c (n :: ns)).cnt =
      c + 9 * (ns.length + 1) ∧ (packNonets r c (n :: ns)).cnt ≤ 7 := by
  obtain ⟨hbits, hcnt, hres⟩ := packStep_bits hc r n
  obtain ⟨hbits', hcnt', -⟩ := packNonets_bits ns hcnt hres
  rw [packNonets_cons]
  refine ⟨?_, hcnt'⟩
  simp only [List.length_append]
  omega

/-- One character's nonets, one to four of them, make one to five bytes. -/
theorem packNonets_charNonets_bytes (cp : CodePoint) {c : Nat} (hc : c ≤ 7) (r : Nat) :
    1 ≤ (packNonets r c (charNonets cp)).bytes.length ∧
    (packNonets r c (charNonets cp)).bytes.length ≤ 5 := by
  have hlen : (charNonets cp).length = (utf8 cp).length := charNonets_length cp
  obtain ⟨hmin, hmax⟩ := utf8_length_bounds cp
  cases hns : charNonets cp with
  | nil =>
    rw [hns, List.length_nil] at hlen
    omega
  | cons n ns =>
    obtain ⟨hbits, hcnt⟩ := packNonets_cons_bits n ns hc r
    rw [hns, List.length_cons] at hlen
    omega

theorem EncPutEffect.bytes {cp : CodePoint} {u u' : EncUnit} {toks : List EncToken}
    (h : EncPutEffect cp u u' toks) : ∃ bs : List Byte, toks = bs.map .byte ∧ bs.length ≤ 5 ∧
      (bs = [] ↔ u.status = .fault ∨ isScalar cp = false) := by
  cases h with
  | ignored hfault => exact ⟨[], rfl, by simp, by simp [hfault]⟩
  | raised _ hcp => exact ⟨[], rfl, by simp, by simp [hcp]⟩
  | packed p hp hrun hcp =>
    obtain ⟨hmin, hmax⟩ := packNonets_charNonets_bytes cp (c := u.rcnt.toNat) (by omega) u.res.toNat
    rw [← hp] at hmin hmax
    have hne : p.bytes ≠ [] := List.length_pos_iff.mp hmin
    exact ⟨p.bytes, rfl, hmax, by simp [hne, hrun, hcp]⟩

theorem paddingBytes_length (r c : Nat) : (paddingBytes r c).length = if 0 < c then 1 else 0 := by
  unfold paddingBytes
  split <;> rfl

/-- `ENC.END` in `RUN` reports no error behind the padding. -/
theorem encEndTokens_of_run {u : EncUnit} (h : u.status = .run) :
    encEndTokens u = (paddingBytes u.res.toNat u.rcnt.toNat).map .byte ++ [.done 0] := by
  simp [encEndTokens, h]

/-- `ENC.END` in `FAULT` reports the cause recorded. -/
theorem encEndTokens_of_fault {u : EncUnit} (h : u.status = .fault) :
    encEndTokens u = [.done u.cause] := by
  simp [encEndTokens, h]

theorem encEndTokens_shape (u : EncUnit) : ∃ (bs : List Byte) (c : CauseBits),
    encEndTokens u = bs.map .byte ++ [.done c] ∧ bs.length ≤ 1 := by
  cases hst : u.status with
  | run =>
    refine ⟨_, _, encEndTokens_of_run hst, ?_⟩
    rw [paddingBytes_length]
    split <;> simp
  | fault => exact ⟨[], _, encEndTokens_of_fault hst, by simp⟩

/-- The tokens are at most one `CHAR` and nothing else. -/
def AtMostOneChar (toks : List DecToken) : Prop :=
  ∃ cps : List CodePoint, toks = cps.map .char ∧ cps.length ≤ 1

theorem atMostOneChar_nil : AtMostOneChar [] := ⟨[], rfl, by simp⟩

theorem FlushEffect.atMostOneChar {u v u' : DecUnit} {toks : List DecToken}
    (h : FlushEffect u v u' toks) : AtMostOneChar toks := by
  cases h with
  | empty => exact atMostOneChar_nil
  | character cp => exact ⟨[cp], rfl, by simp⟩
  | badRun => exact atMostOneChar_nil

theorem NonetEffect.atMostOneChar {u u' : DecUnit} {toks : List DecToken}
    (h : NonetEffect u u' toks) : AtMostOneChar toks := by
  cases h with
  | start d hflush => exact hflush.atMostOneChar
  | leadingCont => exact atMostOneChar_nil
  | badRun => exact atMostOneChar_nil
  | extended => exact atMostOneChar_nil

theorem DecPutEffect.atMostOneChar {b : Byte} {u u' : DecUnit} {toks : List DecToken}
    (h : DecPutEffect b u u' toks) : AtMostOneChar toks := by
  cases h with
  | ignored => exact atMostOneChar_nil
  | buffered => exact atMostOneChar_nil
  | completed r c _ _ _ hnonet => exact hnonet.atMostOneChar

theorem DecEndTokens.shape {u : DecUnit} {toks : List DecToken} (h : DecEndTokens u toks) :
    ∃ (chs : List DecToken) (c : CauseBits), toks = chs ++ [.done c] ∧ AtMostOneChar chs := by
  cases h with
  | checked _ _ hflush => exact ⟨_, _, rfl, hflush.atMostOneChar⟩
  | reported => exact ⟨[], _, rfl, atMostOneChar_nil⟩

/-- Settles O32: the effect of each command bounds the tokens it emits, from every state. -/
theorem tokensPerStep : Obligations.TokensPerStep := by
  intro s
  refine ⟨fun cp => ?_, ?_, fun b => ?_, ?_⟩
  · obtain ⟨u', toks, heff, hgoes⟩ := encPut_effect cp s.enc
    obtain ⟨bs, rfl, hlen, hnil⟩ := heff.bytes
    exact ⟨_, bs, hgoes s rfl, rfl, hlen, hnil⟩
  · obtain ⟨bs, c, htoks, hlen⟩ := encEndTokens_shape s.enc
    exact ⟨_, bs, c, encEnd_goes s.enc s rfl, by simp [htoks], hlen⟩
  · obtain ⟨u', toks, heff, hgoes⟩ := decPut_effect b s.dec
    obtain ⟨cps, rfl, hlen⟩ := heff.atMostOneChar
    exact ⟨_, cps, hgoes s rfl, rfl, hlen⟩
  · obtain ⟨toks, heff, hgoes⟩ := decEnd_effect s.dec
    obtain ⟨chs, c, rfl, cps, rfl, hlen⟩ := heff.shape
    exact ⟨_, cps, c, hgoes s rfl, by simp, hlen⟩

/-! ### The interleaving of the units' events (R59) -/

theorem decodeEncCmd_format (w : Word22) : (decodeEncCmd w).format = .encCmd := by
  unfold decodeEncCmd
  split <;> rfl

theorem decodeDecCmd_format (w : Word9) : (decodeDecCmd w).format = .decCmd := by
  unfold decodeDecCmd
  split <;> rfl

/-- An event for the encoder moves the encoder alone, by what the encoder holds. -/
theorem afterEvent_goes_of_enc {e : Event} (he : e.unit = .enc) (u : EncUnit) :
    ∃ u' toks, ∀ s : State, s.enc = u → afterEvent e s = .next (encAfter u' toks s) := by
  cases e with
  | encCmd w => exact encGoes_of_format (decodeEncCmd_format w) u
  | decCmd w => cases he
  | reset v =>
    cases he
    exact ⟨EncUnit.reset, [], fun s _ => by simp [afterEvent, returnToReset, encAfter]⟩

/-- An event for the decoder moves the decoder alone, by what the decoder holds. -/
theorem afterEvent_goes_of_dec {e : Event} (he : e.unit = .dec) (u : DecUnit) :
    ∃ u' toks, ∀ s : State, s.dec = u → afterEvent e s = .next (decAfter u' toks s) := by
  cases e with
  | encCmd w => cases he
  | decCmd w => exact decGoes_of_format (by simp [decodeDecCmd_format]) u
  | reset v =>
    cases he
    exact ⟨DecUnit.reset, [], fun s _ => by simp [afterEvent, returnToReset, decAfter]⟩

/-- The states agree on a unit: its registers and its stream. -/
def SameUnit : UnitId → State → State → Prop
  | .enc, s, s' => s.enc = s'.enc ∧ s.encOut = s'.encOut
  | .dec, s, s' => s.dec = s'.dec ∧ s.decOut = s'.decOut

theorem SameUnit.refl (u : UnitId) (s : State) : SameUnit u s s := by
  cases u <;> exact ⟨rfl, rfl⟩

theorem SameUnit.trans {u : UnitId} {s s' s'' : State} (h : SameUnit u s s')
    (h' : SameUnit u s' s'') : SameUnit u s s'' := by
  cases u with
  | enc =>
    obtain ⟨henc, hout⟩ := h
    obtain ⟨henc', hout'⟩ := h'
    exact ⟨henc.trans henc', hout.trans hout'⟩
  | dec =>
    obtain ⟨hdec, hout⟩ := h
    obtain ⟨hdec', hout'⟩ := h'
    exact ⟨hdec.trans hdec', hout.trans hout'⟩

/-- An event does the same to its unit in states that agree on the unit. -/
theorem afterEvent_sameUnit_of_unit {e : Event} {u : UnitId} (he : e.unit = u) {s s' : State}
    (h : SameUnit u s s') :
    ∃ t t', afterEvent e s = .next t ∧ afterEvent e s' = .next t' ∧ SameUnit u t t' := by
  cases u with
  | enc =>
    obtain ⟨henc, hout⟩ := h
    obtain ⟨u', toks, hgoes⟩ := afterEvent_goes_of_enc he s'.enc
    exact ⟨_, _, hgoes s henc, hgoes s' rfl, rfl, by simp [hout]⟩
  | dec =>
    obtain ⟨hdec, hout⟩ := h
    obtain ⟨u', toks, hgoes⟩ := afterEvent_goes_of_dec he s'.dec
    exact ⟨_, _, hgoes s hdec, hgoes s' rfl, rfl, by simp [hout]⟩

/-- An event leaves the other unit as it is. -/
theorem afterEvent_sameUnit_of_ne {e : Event} {u : UnitId} (he : e.unit ≠ u) (s : State) :
    ∃ t, afterEvent e s = .next t ∧ SameUnit u t s := by
  cases hu : e.unit with
  | enc =>
    obtain ⟨u', toks, hgoes⟩ := afterEvent_goes_of_enc hu s.enc
    cases u with
    | enc => exact absurd hu he
    | dec => exact ⟨_, hgoes s rfl, rfl, rfl⟩
  | dec =>
    obtain ⟨u', toks, hgoes⟩ := afterEvent_goes_of_dec hu s.dec
    cases u with
    | enc => exact ⟨_, hgoes s rfl, rfl, rfl⟩
    | dec => exact absurd hu he

/-- A run over all events and a run over one unit's alone keep the states' agreement on the unit. -/
theorem runEvents_filter_unit (u : UnitId) (evs : List Event) : ∀ {s s' : State}, SameUnit u s s' →
    ∃ t t', runEvents evs s = .next t ∧
      runEvents (evs.filter fun e => e.unit == u) s' = .next t' ∧ SameUnit u t t' := by
  induction evs with
  | nil =>
    intro s s' h
    exact ⟨_, _, runEvents_nil s, runEvents_nil s', by cases u <;> exact h⟩
  | cons e evs ih =>
    intro s s' h
    by_cases he : e.unit = u
    · obtain ⟨s₁, s₁', hs, hs', h₁⟩ := afterEvent_sameUnit_of_unit he h
      rw [List.filter_cons_of_pos (by simpa using he), runEvents_cons _ hs, runEvents_cons _ hs']
      exact ih h₁
    · obtain ⟨s₁, hs, h₁⟩ := afterEvent_sameUnit_of_ne he s
      rw [List.filter_cons_of_neg (by simpa using he), runEvents_cons _ hs]
      exact ih (h₁.trans h)

/-- Settles O34: the agreement holds at the start, since both runs start from one state. -/
theorem interleavingDoesNotMatter : Obligations.InterleavingDoesNotMatter := by
  intro evs s
  obtain ⟨t, te, ht, hte, henc, hencOut⟩ := runEvents_filter_unit .enc evs (SameUnit.refl .enc s)
  obtain ⟨t', td, ht', htd, hdec, hdecOut⟩ := runEvents_filter_unit .dec evs (SameUnit.refl .dec s)
  obtain rfl : t = t' := Host.Outcome.next.inj (ht.symm.trans ht')
  exact ⟨t, te, td, ht, hte, htd, henc, hencOut, hdec, hdecOut⟩

/-! ### Packing and unpacking (R54, R55) -/

@[simp] theorem pack_length (s : List Bool) : (pack s).length = (s.length + 7) / 8 := by
  simp [pack]

/-- The byte of eight bits unpacks to them. -/
theorem unpack_ofNat_msbValue {s : List Bool} (h : s.length = 8) :
    unpack [BitVec.ofNat 8 (msbValue s)] = s := by
  rw [unpack_cons, unpack_nil, List.append_nil, byteBits_ofNat, ← h, msbBits_msbValue]

/-- Every stream is whole bytes and fewer than eight bits behind them. -/
theorem exists_unpack_append (s : List Bool) :
    ∃ (B : List Byte) (r : List Bool), s = unpack B ++ r ∧ r.length < 8 := by
  by_cases hshort : s.length < 8
  · exact ⟨[], s, rfl, hshort⟩
  · have hfirst : (s.take 8).length = 8 := by
      rw [List.length_take]
      omega
    obtain ⟨B, r, hrest, hr⟩ := exists_unpack_append (s.drop 8)
    refine ⟨[BitVec.ofNat 8 (msbValue (s.take 8))] ++ B, r, ?_, hr⟩
    rw [unpack_append, unpack_ofNat_msbValue hfirst, List.append_assoc, ← hrest,
      List.take_append_drop]
termination_by s.length
decreasing_by
  rw [List.length_drop]
  omega

/-- Fewer than eight bits: nothing is packed of none, and one byte, zero padded, of some. -/
theorem unpack_pack_short {r : List Bool} (hr : r.length < 8) :
    unpack (pack r) = r ++ List.replicate (8 * ((r.length + 7) / 8) - r.length) false := by
  by_cases h0 : r = []
  · subst h0
    rfl
  · have hpos : 0 < r.length := List.length_pos_iff.mpr h0
    have hpad : 8 * ((r.length + 7) / 8) - r.length = 8 - r.length := by omega
    rw [pack_short h0 hr, hpad]
    refine unpack_ofNat_msbValue ?_
    rw [List.length_append, List.length_replicate]
    omega

/-- Settles O40: the whole bytes come back as they are, and the rest with its padding. -/
theorem unpackOfPackAddsOnlyPadding : Obligations.UnpackOfPackAddsOnlyPadding := by
  intro s
  refine ⟨pack_length s, ?_, by omega⟩
  obtain ⟨B, r, rfl, hr⟩ := exists_unpack_append s
  have hpad : 8 * (((unpack B ++ r).length + 7) / 8) - (unpack B ++ r).length =
      8 * ((r.length + 7) / 8) - r.length := by
    rw [List.length_append, unpack_length]
    omega
  rw [hpad, pack_unpack_append, unpack_append, unpack_pack_short hr, List.append_assoc]

/-! ### The length of an encoding (R65) -/

/-- The events of an encoder transaction: one `PUT` word per character, and the `END` word. -/
theorem encodeEvents_eq (T : List CodePoint) :
    encodeEvents T = (T.map fun c => .encCmd (0#1 ++ c)) ++ [.encCmd (1#1 ++ 0#21)] := by
  have hput (c : CodePoint) : presented (.encPut c) = some (.encCmd (0#1 ++ c)) :=
    congrArg (fun w => some (Event.encCmd w)) (BitVec.ofNat_toNat 22 (0#1 ++ c))
  induction T with
  | nil => rfl
  | cons c T ih =>
    refine (List.filterMap_cons_some (hput c)).trans ?_
    rw [List.map_cons, List.cons_append]
    exact congrArg _ ih

/-- The `END` word at the encoder's port runs `ENC.END`. -/
theorem afterEvent_encEnd (s : State) : afterEvent (.encCmd (1#1 ++ 0#21)) s =
    .next (encAfter EncUnit.reset (encEndTokens s.enc) s) := by
  have hdecode : decodeEncCmd (1#1 ++ 0#21) = .encEnd := by decide
  rw [afterEvent, hdecode, encEnd_goes s.enc s rfl]

/-- An encoder transaction is the characters put and then `ENC.END`. -/
theorem runEvents_encodeEvents {T : List CodePoint} {s t : State}
    (h : runEvents (T.map fun c => .encCmd (0#1 ++ c)) s = .next t) :
    runEvents (encodeEvents T) s =
      .next (putPending [] (encAfter EncUnit.reset (encEndTokens t.enc) t)) := by
  rw [encodeEvents_eq, runEvents_append _ h, runEvents_cons [] (afterEvent_encEnd t)]
  rfl

/-- `encode` reads its result off the tokens of the transaction run from reset. -/
theorem encodeText_eq {T : List CodePoint} {t : State}
    (h : runEvents (T.map fun c => .encCmd (0#1 ++ c)) State.reset = .next t) :
    encodeText T = encResult (t.encOut ++ encEndTokens t.enc) := by
  simp [encodeText, encodeFrom, runEvents_encodeEvents h]

/-- Bytes closed by `DONE` without a cause are the value of the transaction. -/
theorem encResult_bytes_done (bs : List Byte) :
    encResult (bs.map .byte ++ [.done 0]) = some (.ok bs) := by
  have hbytes : (bs.map EncToken.byte).filterMap EncToken.byte? = bs := by
    rw [List.filterMap_map]
    exact List.filterMap_some
  simp [encResult, resultOf, hbytes, EncToken.byte?]

/-- A transaction closed by `DONE` with a cause has no value. -/
theorem encResult_done_ne_ok {c : CauseBits} (hc : c ≠ 0) (ts : List EncToken) (C : List Byte) :
    encResult (ts ++ [.done c]) ≠ some (.ok C) := by
  have hresult : encResult (ts ++ [.done c]) = some (.err (causeKind c) (causeSub c)) := by
    simp only [encResult, List.getLast?_concat, resultOf, if_neg hc]
  simp [hresult]

/-- A unit in `RUN` after `ENC.PUT` was in `RUN` before, and was put a scalar value. -/
theorem EncPutEffect.run_before {cp : CodePoint} {u u' : EncUnit} {toks : List EncToken}
    (h : EncPutEffect cp u u' toks) (hrun : u'.status = .run) :
    u.status = .run ∧ isScalar cp = true := by
  cases h with
  | ignored hfault => rw [hrun] at hfault; cases hfault
  | raised => cases hrun
  | packed _ _ hst hcp => exact ⟨hst, hcp⟩

/-- A text put to an encoder keeps the invariant, and the encoder ends in `RUN` only if it began in
`RUN` and every element of the text is a scalar value. -/
theorem runEvents_encPut_status (T : List CodePoint) : ∀ {s : State}, EncInv s.enc →
    ∃ t : State, runEvents (T.map fun c => .encCmd (0#1 ++ c)) s = .next t ∧ EncInv t.enc ∧
      (t.enc.status = .run → s.enc.status = .run ∧ ∀ c ∈ T, isScalar c = true) := by
  induction T with
  | nil =>
    intro s hinv
    exact ⟨_, runEvents_nil s, hinv, fun hrun => ⟨hrun, by simp⟩⟩
  | cons c T ih =>
    intro s hinv
    obtain ⟨u', toks, heff, hgoes⟩ := encPut_effect c s.enc
    obtain ⟨t, ht, hinvt, hstatus⟩ := ih (s := encAfter u' toks s) (heff.encInv hinv)
    refine ⟨t, (runEvents_encPut_cons _ (hgoes s rfl)).trans ht, hinvt, fun hrun => ?_⟩
    obtain ⟨hrun', hT⟩ := hstatus hrun
    obtain ⟨hrun₀, hc⟩ := heff.run_before hrun'
    exact ⟨hrun₀, List.forall_mem_cons.mpr ⟨hc, hT⟩⟩

/-- Only a text of scalar values has an encoding. -/
theorem forall_isScalar_of_encodeText {T : List CodePoint} {C : List Byte}
    (h : encodeText T = some (.ok C)) : ∀ c ∈ T, isScalar c = true := by
  obtain ⟨t, ht, ⟨-, -, hcause⟩, hstatus⟩ :=
    runEvents_encPut_status T (s := State.reset) encInv_reset
  cases hst : t.enc.status with
  | run =>
    obtain ⟨-, hT⟩ := hstatus hst
    exact hT
  | fault =>
    rw [encodeText_eq ht, encEndTokens_of_fault hst, hcause hst] at h
    exact absurd h (encResult_done_ne_ok (by decide) _ C)

/-- A text of scalar values has an encoding, of the length its nonets give. -/
theorem exists_encodeText {T : List CodePoint} (hT : ∀ c ∈ T, isScalar c = true) :
    ∃ C, encodeText T = some (.ok C) ∧ C.length = bufferLength (textNonets T).length := by
  obtain ⟨t, bs, ht, hout, hrun, hbits⟩ :=
    runEvents_encPut_bits T (s := State.reset) rfl encInv_reset hT
  refine ⟨bs ++ paddingBytes t.enc.res.toNat t.enc.rcnt.toNat, ?_, ?_⟩
  · rw [encodeText_eq ht, hout, State.reset_encOut, List.nil_append, encEndTokens_of_run hrun,
      ← List.append_assoc, ← List.map_append, encResult_bytes_done]
  · have hcnt : t.enc.rcnt.toNat < 8 := t.enc.rcnt.isLt
    have hbits₀ : 8 * bs.length + t.enc.rcnt.toNat = 9 * (textNonets T).length := by
      simpa using hbits
    rw [List.length_append, paddingBytes_length, bufferLength]
    split <;> omega

theorem length_of_encodeText {T : List CodePoint} {C : List Byte}
    (h : encodeText T = some (.ok C)) : C.length = bufferLength (textNonets T).length := by
  obtain ⟨C', hC', hlen⟩ := exists_encodeText (forall_isScalar_of_encodeText h)
  obtain rfl : C' = C := by simpa [hC'] using h
  exact hlen

/-- The text of `n` letters `A` has `n` nonets. -/
theorem textNonets_replicate_length (n : Nat) :
    (textNonets (List.replicate n 0x41)).length = n := by
  have hA : (utf8 0x41#21).length = 1 := by decide
  simp [textNonets, hA]

/-- No number of nonets gives a buffer of 1 byte more than a multiple of 9. -/
theorem bufferLength_mod_ne_one (n : Nat) : bufferLength n % 9 ≠ 1 := by
  unfold bufferLength
  omega

/-- The bits behind the last nonet of `L` bytes fit the padding but for those lengths. -/
theorem trailing_le_seven_iff (L : Nat) : 8 * L % 9 ≤ 7 ↔ L % 9 ≠ 1 := by
  omega

/-- Any other length is that of the nonets it has room for. -/
theorem bufferLength_of_mod_ne_one {L : Nat} (h : L % 9 ≠ 1) : bufferLength (8 * L / 9) = L := by
  have htrailing : 8 * L % 9 ≤ 7 := (trailing_le_seven_iff L).mpr h
  unfold bufferLength
  omega

/-- The lengths of valid encodings: every one but those of 1 byte more than a multiple of 9. -/
theorem exists_encodeText_length_iff (L : Nat) :
    (∃ T C, encodeText T = some (.ok C) ∧ C.length = L) ↔ L % 9 ≠ 1 := by
  constructor
  · rintro ⟨T, C, hC, rfl⟩
    rw [length_of_encodeText hC]
    exact bufferLength_mod_ne_one _
  · intro hL
    have hT : ∀ c ∈ List.replicate (8 * L / 9) (0x41 : CodePoint), isScalar c = true := by
      intro c hc
      rw [List.eq_of_mem_replicate hc]
      decide
    obtain ⟨C, hC, hlen⟩ := exists_encodeText hT
    refine ⟨_, C, hC, hlen.trans ?_⟩
    rw [textNonets_replicate_length, bufferLength_of_mod_ne_one hL]

theorem textNonets_length (T : List CodePoint) :
    (textNonets T).length = (T.flatMap utf8).length := by
  simp [textNonets, List.length_flatMap]

theorem completeNonets_length (s : List Bool) : (completeNonets s).length = s.length / 9 := by
  simp [completeNonets]

theorem trailingGroup_length (s : List Bool) : (trailingGroup s).length = s.length % 9 := by
  rw [trailingGroup, List.length_drop]
  omega

/-- Settles O41: each length is that of the list the model builds, and the rest is arithmetic of the
two roundings. -/
theorem lengthsOfBuffers : Obligations.LengthsOfBuffers := by
  refine ⟨textNonets_length, fun ns => ?_, fun B => ?_⟩
  · have hpack : (pack (bitsOf ns)).length = (9 * ns.length + 7) / 8 := by simp
    refine ⟨bitsOf_length ns, ?_, hpack.symm, ?_⟩
    · omega
    · unfold paddingLength bufferLength
      omega
  · refine ⟨?_, ?_, trailing_le_seven_iff _, exists_encodeText_length_iff _,
      bufferLength_of_mod_ne_one⟩
    · rw [completeNonets_length, unpack_length]
    · rw [trailingGroup_length, unpack_length]

end Sys2Proof.Machine
end

section
/-!
PROOFS for 30_encoding.md. Each format is one framing or flag bit above an operand, so every word is
`0#1 ++ x` or `1#1 ++ x`. Which of these words stand for which instruction is said once, as the
relation `IsWordOf`, which is what `decode` computes; the rows of the opcode table and the words of
the tokens are read off the same two shapes.
-/

namespace Sys2Proof.Machine

/-! ### One bit above an operand -/

/-- The framing or flag bit 1 above an operand. -/
theorem getLsbD_one_append {w : Nat} (x : BitVec w) : (1#1 ++ x).getLsbD w = true := by
  rw [BitVec.getLsbD_append]
  simp

theorem toNat_zero_append (k : Nat) {w : Nat} (x : BitVec w) : (0#k ++ x).toNat = x.toNat := by
  rw [BitVec.toNat_append]
  simp

theorem toNat_one_append {w : Nat} (x : BitVec w) : (1#1 ++ x).toNat = 2 ^ w + x.toNat := by
  rw [BitVec.toNat_append, ← Nat.shiftLeft_add_eq_or_of_lt x.isLt, Nat.shiftLeft_eq]
  simp

theorem zero_append_ne_one_append {w : Nat} (x y : BitVec w) : 0#1 ++ x ≠ 1#1 ++ y := fun h =>
  Bool.false_ne_true <|
    calc false = (0#1 ++ x).getLsbD w := (getLsbD_zero_append x).symm
      _ = (1#1 ++ y).getLsbD w := by rw [h]
      _ = true := getLsbD_one_append y

/-- A number that fits is an operand below the top bit, which is 0 or 1. -/
theorem exists_append_of_lt {w v : Nat} (hv : v < 2 ^ (1 + w)) :
    ∃ x : BitVec w, v = (0#1 ++ x).toNat ∨ v = (1#1 ++ x).toNat := by
  have htwice : 2 ^ (1 + w) = 2 ^ w + 2 ^ w := by rw [Nat.add_comm, Nat.pow_succ, Nat.mul_two]
  by_cases hlow : v < 2 ^ w
  · refine ⟨BitVec.ofNat w v, .inl ?_⟩
    rw [toNat_zero_append, BitVec.toNat_ofNat, Nat.mod_eq_of_lt hlow]
  · refine ⟨BitVec.ofNat w (v - 2 ^ w), .inr ?_⟩
    rw [toNat_one_append, BitVec.toNat_ofNat, Nat.mod_eq_of_lt (by omega)]
    omega

/-! ### What the command and nonet decoders read -/

/-- The encoder's port word with the framing bit 1 is `END`, whatever is below it. -/
theorem decodeEncCmd_one_append (x : BitVec 21) : decodeEncCmd (1#1 ++ x) = .encEnd :=
  if_pos (getLsbD_one_append x)

/-- The decoder's port word with the framing bit 1 is `END`, whatever is below it. -/
theorem decodeDecCmd_one_append (x : BitVec 8) : decodeDecCmd (1#1 ++ x) = .decEnd :=
  if_pos (getLsbD_one_append x)

theorem decodeNonet_zero_append (d : Byte) : decodeNonet (0#1 ++ d) = .nonetStart d :=
  (if_neg (Bool.eq_false_iff.mp (getLsbD_zero_append d))).trans
    (congrArg Instr.nonetStart BitVec.extractLsb'_append_eq_right)

theorem decodeNonet_one_append (d : Byte) : decodeNonet (1#1 ++ d) = .nonetCont d :=
  (if_pos (getLsbD_one_append d)).trans
    (congrArg Instr.nonetCont BitVec.extractLsb'_append_eq_right)

/-- A nonet fits, and `decode` reads its kind from it. -/
theorem decode_nonet_toNat (n : Nonet) : decode ⟨.nonet, n.toNat⟩ = .ok (decodeNonet n) := by
  have hfit : (RawWord.mk .nonet n.toNat).wf = true := decide_eq_true n.isLt
  calc decode ⟨.nonet, n.toNat⟩ = .ok (decodeNonet (BitVec.ofNat 9 n.toNat)) := if_pos hfit
    _ = .ok (decodeNonet n) := by rw [BitVec.ofNat_toNat, BitVec.setWidth_eq]

/-- A number too wide for its format is refused by name. -/
theorem decode_of_not_wf {r : RawWord} (h : r.wf = false) :
    decode r = .error (.wordTooWide r.format) :=
  if_neg (Bool.eq_false_iff.mp h)

/-! ### The words of an instruction -/

/-- The words that stand for an instruction (30_encoding.md R71, R81, R83): its framing or flag bit
above its operand, or, for an `END`, above any bits at all. -/
inductive IsWordOf : Instr → RawWord → Prop
  | encPut (cp : CodePoint) : IsWordOf (.encPut cp) ⟨.encCmd, (0#1 ++ cp).toNat⟩
  | encEnd (ignored : BitVec 21) : IsWordOf .encEnd ⟨.encCmd, (1#1 ++ ignored).toNat⟩
  | decPut (b : Byte) : IsWordOf (.decPut b) ⟨.decCmd, (0#1 ++ b).toNat⟩
  | decEnd (ignored : BitVec 8) : IsWordOf .decEnd ⟨.decCmd, (1#1 ++ ignored).toNat⟩
  | nonetStart (d : Byte) : IsWordOf (.nonetStart d) ⟨.nonet, (0#1 ++ d).toNat⟩
  | nonetCont (d : Byte) : IsWordOf (.nonetCont d) ⟨.nonet, (1#1 ++ d).toNat⟩

/-- The encoder picks one of the instruction's words. -/
theorem isWordOf_encode (i : Instr) : IsWordOf i (encode i) := by
  cases i with
  | encPut cp => exact .encPut cp
  | encEnd => exact .encEnd 0
  | decPut b => exact .decPut b
  | decEnd => exact .decEnd 0
  | nonetStart d => exact .nonetStart d
  | nonetCont d => exact .nonetCont d

theorem IsWordOf.format_eq {i : Instr} {r : RawWord} (h : IsWordOf i r) : r.format = i.format := by
  cases h <;> rfl

theorem IsWordOf.wf {i : Instr} {r : RawWord} (h : IsWordOf i r) : r.wf = true := by
  cases h <;> exact decide_eq_true (BitVec.isLt _)

theorem IsWordOf.decode_eq {i : Instr} {r : RawWord} (h : IsWordOf i r) : decode r = .ok i := by
  cases h with
  | encPut cp => rw [decode_encCmd_toNat, decodeEncCmd_zero_append]
  | encEnd x => rw [decode_encCmd_toNat, decodeEncCmd_one_append]
  | decPut b => rw [decode_decCmd_toNat, decodeDecCmd_zero_append]
  | decEnd x => rw [decode_decCmd_toNat, decodeDecCmd_one_append]
  | nonetStart d => rw [decode_nonet_toNat, decodeNonet_zero_append]
  | nonetCont d => rw [decode_nonet_toNat, decodeNonet_one_append]

/-- Every number that fits its format is a word of some instruction: no word is illegal. -/
theorem exists_isWordOf {f : Format} {v : Nat} (hv : v < 2 ^ f.width) :
    ∃ i, IsWordOf i ⟨f, v⟩ := by
  cases f with
  | encCmd =>
    obtain ⟨x, rfl | rfl⟩ := exists_append_of_lt (w := 21) hv
    · exact ⟨_, .encPut x⟩
    · exact ⟨_, .encEnd x⟩
  | decCmd =>
    obtain ⟨x, rfl | rfl⟩ := exists_append_of_lt (w := 8) hv
    · exact ⟨_, .decPut x⟩
    · exact ⟨_, .decEnd x⟩
  | nonet =>
    obtain ⟨x, rfl | rfl⟩ := exists_append_of_lt (w := 8) hv
    · exact ⟨_, .nonetStart x⟩
    · exact ⟨_, .nonetCont x⟩

/-- What `decode` computes: the instruction whose word it is given. -/
theorem decode_eq_ok_iff {r : RawWord} {i : Instr} : decode r = .ok i ↔ IsWordOf i r := by
  refine ⟨fun h => ?_, IsWordOf.decode_eq⟩
  cases hfit : r.wf with
  | false => rw [decode_of_not_wf hfit] at h; cases h
  | true =>
    obtain ⟨j, hj⟩ := exists_isWordOf (of_decide_eq_true hfit)
    have hij : j = i := Except.ok.inj (hj.decode_eq.symm.trans h)
    exact hij ▸ hj

/-- But for the ignored bits of an `END`, an instruction has one word. -/
theorem IsWordOf.encode_eq {i : Instr} {r : RawWord} (h : IsWordOf i r) (henc : i ≠ .encEnd)
    (hdec : i ≠ .decEnd) : encode i = r := by
  cases h with
  | encEnd => exact absurd rfl henc
  | decEnd => exact absurd rfl hdec
  | _ => rfl

/-- The encoder writes the ignored bits of `ENC.END` 0. -/
theorem IsWordOf.encode_encEnd_value {r : RawWord} (h : IsWordOf .encEnd r) :
    (encode .encEnd).value = r.value &&& 0x200000 := by
  cases h with
  | encEnd x => exact (Laws.one_append_and x).symm

/-- The encoder writes the ignored bits of `DEC.END` 0. -/
theorem IsWordOf.encode_decEnd_value {r : RawWord} (h : IsWordOf .decEnd r) :
    (encode .decEnd).value = r.value &&& 0x100 := by
  cases h with
  | decEnd x => exact (Laws.one_append_and x).symm

/-- Settles O1: the encoder's word is one of the instruction's words, and `decode` reads each of
them. -/
theorem encodedInstructionDecodesToItself : Obligations.EncodedInstructionDecodesToItself := by
  intro i
  have h := isWordOf_encode i
  exact ⟨h.decode_eq, h.wf, h.format_eq⟩

/-- Settles O2: a number that fits is a word of an instruction, and one that does not fit is not
well formed. -/
theorem everyWordSelectsAnInstruction : Obligations.EveryWordSelectsAnInstruction := by
  refine fun f v => ⟨fun hv => ?_, fun hv => decode_of_not_wf (decide_eq_false hv.not_gt)⟩
  obtain ⟨i, h⟩ := exists_isWordOf hv
  refine ⟨i, h.decode_eq, h.format_eq.symm, h.encode_eq, ?_, ?_⟩
  · rintro rfl
    exact h.encode_encEnd_value
  · rintro rfl
    exact h.encode_decEnd_value

/-! ### The opcode table -/

/-- Every word of an instruction matches the row that has the instruction's mnemonic. -/
theorem IsWordOf.matches_own_row {i : Instr} {r : RawWord} (h : IsWordOf i r) :
    ∃ row ∈ opcodeRows, row.mnemonic = i.mnemonic ∧ row.matchesWord r = true := by
  have hwf := h.wf
  cases h with
  | encPut cp =>
    obtain ⟨-, -, hrow⟩ := Laws.EncodeFits.encPut cp
    exact hrow
  | encEnd x => exact ⟨⟨"ENC.END", .encCmd, 0x200000, 0x200000⟩, by simp [opcodeRows], rfl,
      Laws.matchesWord_of rfl hwf (Laws.one_append_and x)⟩
  | decPut b =>
    obtain ⟨-, -, hrow⟩ := Laws.EncodeFits.decPut b
    exact hrow
  | decEnd x => exact ⟨⟨"DEC.END", .decCmd, 0x100, 0x100⟩, by simp [opcodeRows], rfl,
      Laws.matchesWord_of rfl hwf (Laws.one_append_and x)⟩
  | nonetStart d =>
    obtain ⟨-, -, hrow⟩ := Laws.EncodeFits.nonetStart d
    exact hrow
  | nonetCont d =>
    obtain ⟨-, -, hrow⟩ := Laws.EncodeFits.nonetCont d
    exact hrow

/-- The mnemonics of the table are distinct. -/
theorem opcodeRow_eq_of_mnemonic : ∀ a ∈ opcodeRows, ∀ b ∈ opcodeRows,
    a.mnemonic = b.mnemonic → a = b := by decide

/-- The rows of one format look at the same bits and ask for different values of them. -/
theorem opcodeRow_masks : ∀ a ∈ opcodeRows, ∀ b ∈ opcodeRows, a.format = b.format →
    a.mask = b.mask ∧ (a.matchBits = b.matchBits → a = b) := by decide

theorem matchesWord_iff {row : OpcodeRow} {r : RawWord} : row.matchesWord r = true ↔
    row.format = r.format ∧ r.wf = true ∧ r.value &&& row.mask = row.matchBits := by
  simp [OpcodeRow.matchesWord, and_assoc]

/-- No word matches two rows of the table. -/
theorem opcodeRow_eq_of_matchesWord {a b : OpcodeRow} {r : RawWord} (ha : a ∈ opcodeRows)
    (hb : b ∈ opcodeRows) (har : a.matchesWord r = true) (hbr : b.matchesWord r = true) :
    a = b := by
  obtain ⟨haf, -, hav⟩ := matchesWord_iff.mp har
  obtain ⟨hbf, -, hbv⟩ := matchesWord_iff.mp hbr
  obtain ⟨hmask, heq⟩ := opcodeRow_masks a ha b hb (haf.trans hbf.symm)
  exact heq (by rw [← hav, ← hbv, hmask])

/-- Settles O3: a word matches the row of its instruction and no other, and that row alone has the
instruction's mnemonic. -/
theorem decoderAgreesWithOpcodeTable : Obligations.DecoderAgreesWithOpcodeTable := by
  intro r i row hdecode hrow
  obtain ⟨own, hown, hname, hmatch⟩ := (decode_eq_ok_iff.mp hdecode).matches_own_row
  constructor
  · intro h
    rw [opcodeRow_eq_of_matchesWord hrow hown h hmatch, hname]
  · intro h
    rwa [opcodeRow_eq_of_mnemonic row hrow own hown (h.trans hname.symm)]

/-- Settles O4: each number is the framing or flag bit above the operand named, or above the ignored
bits of an `END`. -/
theorem writtenWordsDecode : Obligations.WrittenWordsDecode :=
  ⟨(IsWordOf.encPut 0x1F600).decode_eq, (IsWordOf.encPut 0x1FFFFF).decode_eq,
    (IsWordOf.encEnd 0).decode_eq, (IsWordOf.encEnd 0x1FFFFF).decode_eq,
    (IsWordOf.decPut 0x20).decode_eq, (IsWordOf.decPut 0xFF).decode_eq,
    (IsWordOf.decEnd 0).decode_eq, (IsWordOf.decEnd 0xFF).decode_eq,
    (IsWordOf.nonetStart 0x41).decode_eq, (IsWordOf.nonetCont 0xA9).decode_eq⟩

/-! ### The words of the tokens -/

/-- A `done` bit and zeros above a cause: the cause is determined. -/
theorem one_zero_append_injective {k w : Nat} {c d : BitVec w}
    (h : 1#1 ++ (0#k ++ c) = 1#1 ++ (0#k ++ d)) : c = d :=
  (BitVec.append_right_inj _).mp ((BitVec.append_right_inj _).mp h)

/-- The words of two encoder tokens differ in `done` or below it. -/
theorem EncToken.word_injective {a b : EncToken} (h : a.word = b.word) : a = b := by
  cases a with
  | byte x => cases b with
    | byte y => exact congrArg EncToken.byte ((BitVec.append_right_inj _).mp h)
    | done d => exact absurd h (zero_append_ne_one_append _ _)
  | done c => cases b with
    | byte y => exact absurd h.symm (zero_append_ne_one_append _ _)
    | done d => exact congrArg EncToken.done (one_zero_append_injective h)

/-- The words of two decoder tokens differ in `done` or below it. -/
theorem DecToken.word_injective {a b : DecToken} (h : a.word = b.word) : a = b := by
  cases a with
  | char x => cases b with
    | char y => exact congrArg DecToken.char ((BitVec.append_right_inj _).mp h)
    | done d => exact absurd h (zero_append_ne_one_append _ _)
  | done c => cases b with
    | char y => exact absurd h.symm (zero_append_ne_one_append _ _)
    | done d => exact congrArg DecToken.done (one_zero_append_injective h)

/-- Settles O5: the operand or the cause is the number below `done`, and `done` and the part
below it determine the token. -/
theorem tokenWordsFollowTheFormats : Obligations.TokenWordsFollowTheFormats := by
  refine ⟨toNat_zero_append 1, fun c => ?_, toNat_zero_append 1, fun c => ?_,
    fun _ _ => EncToken.word_injective, fun _ _ => DecToken.word_injective⟩
  · calc (EncToken.done c).word.toNat = 2 ^ 8 + (0#3 ++ c).toNat := toNat_one_append (0#3 ++ c)
      _ = 0x100 + c.toNat := congrArg (2 ^ 8 + ·) (toNat_zero_append 3 c)
  · calc (DecToken.done c).word.toNat = 2 ^ 21 + (0#16 ++ c).toNat := toNat_one_append (0#16 ++ c)
      _ = 0x200000 + c.toNat := congrArg (2 ^ 21 + ·) (toNat_zero_append 16 c)

end Sys2Proof.Machine
end

section
/-!
PROOFS for 40_encoder.md. The bytes of a UTF-8 form are markers above bit fields; packing moves bits
and neither adds nor drops one, so the bytes of a transaction and its residue are always the bits
of the characters put so far; and the padding of `ENC.END` is what `pack` adds to the bits left over.
-/

namespace Sys2Proof.Machine

open Sys2Proof.Safety

/-! ### The bytes of a character (R101, R73) -/

/-- A marker above a bit field of a character, as a sum that does not carry (40_encoder.md R108). -/
theorem ofNat_marker_add_field {k w : Nat} (m : BitVec k) (cp : CodePoint) (lo : Nat) :
    BitVec.ofNat (k + w) (m.toNat * 2 ^ w + cp.toNat / 2 ^ lo % 2 ^ w) =
      m ++ cp.extractLsb' lo w := by
  have hfield : (cp.extractLsb' lo w).toNat = cp.toNat / 2 ^ lo % 2 ^ w := by
    rw [BitVec.extractLsb'_toNat, Nat.shiftRight_eq_div_pow]
  have hsum : (m ++ cp.extractLsb' lo w).toNat = m.toNat * 2 ^ w + cp.toNat / 2 ^ lo % 2 ^ w := by
    rw [BitVec.toNat_append, ← Nat.shiftLeft_add_eq_or_of_lt (BitVec.isLt _), Nat.shiftLeft_eq,
      hfield]
  rw [← hsum, BitVec.ofNat_toNat, BitVec.setWidth_eq]

/-- A continuation byte: the marker `10` above six bits of the character. -/
theorem ofNat_contByte (cp : CodePoint) (lo : Nat) :
    BitVec.ofNat 8 (0x80 + cp.toNat / 2 ^ lo % 64) = 0b10#2 ++ cp.extractLsb' lo 6 :=
  ofNat_marker_add_field (w := 6) 0b10#2 cp lo

/-- A lead byte: its marker above the bits of the character from `lo` on, when the field holds all
of them. -/
theorem ofNat_leadByte {k w : Nat} (m : BitVec k) {cp : CodePoint} (lo : Nat)
    (hfit : cp.toNat / 2 ^ lo < 2 ^ w) :
    BitVec.ofNat (k + w) (m.toNat * 2 ^ w + cp.toNat / 2 ^ lo) = m ++ cp.extractLsb' lo w := by
  rw [← ofNat_marker_add_field, Nat.mod_eq_of_lt hfit]

/-- The last byte of a form of two bytes or more. -/
theorem ofNat_lastByte (cp : CodePoint) :
    BitVec.ofNat 8 (0x80 + cp.toNat % 64) = 0b10#2 ++ cp.extractLsb' 0 6 := by
  rw [← ofNat_contByte, Nat.pow_zero, Nat.div_one]

/-- The byte before the last of a form of three bytes or more. -/
theorem ofNat_nextToLastByte (cp : CodePoint) :
    BitVec.ofNat 8 (0x80 + cp.toNat / 64 % 64) = 0b10#2 ++ cp.extractLsb' 6 6 :=
  ofNat_contByte cp 6

theorem utf8_of_le_7F {cp : CodePoint} (h : cp.toNat ≤ 0x7F) :
    utf8 cp = [0#1 ++ cp.extractLsb' 0 7] := by
  have hbyte : BitVec.ofNat 8 cp.toNat = 0#1 ++ cp.extractLsb' 0 7 := by
    rw [← ofNat_leadByte 0#1 0 (by omega), Nat.pow_zero, Nat.div_one, BitVec.toNat_zero,
      Nat.zero_mul, Nat.zero_add]
  simp only [utf8, if_pos h, hbyte]

theorem utf8_of_le_7FF {cp : CodePoint} (hlo : 0x80 ≤ cp.toNat) (hhi : cp.toNat ≤ 0x7FF) :
    utf8 cp = [0b110#3 ++ cp.extractLsb' 6 5, 0b10#2 ++ cp.extractLsb' 0 6] := by
  have hnot1 : ¬ cp.toNat ≤ 0x7F := by omega
  have hlead : BitVec.ofNat 8 (0xC0 + cp.toNat / 64) = 0b110#3 ++ cp.extractLsb' 6 5 :=
    ofNat_leadByte (w := 5) (cp := cp) 0b110#3 6 (by omega)
  simp only [utf8, if_neg hnot1, if_pos hhi, hlead, ofNat_lastByte]

theorem utf8_of_le_FFFF {cp : CodePoint} (hlo : 0x800 ≤ cp.toNat) (hhi : cp.toNat ≤ 0xFFFF) :
    utf8 cp = [0b1110#4 ++ cp.extractLsb' 12 4, 0b10#2 ++ cp.extractLsb' 6 6,
      0b10#2 ++ cp.extractLsb' 0 6] := by
  have hnot1 : ¬ cp.toNat ≤ 0x7F := by omega
  have hnot2 : ¬ cp.toNat ≤ 0x7FF := by omega
  have hlead : BitVec.ofNat 8 (0xE0 + cp.toNat / 4096) = 0b1110#4 ++ cp.extractLsb' 12 4 :=
    ofNat_leadByte (w := 4) (cp := cp) 0b1110#4 12 (by omega)
  simp only [utf8, if_neg hnot1, if_neg hnot2, if_pos hhi, hlead, ofNat_nextToLastByte,
    ofNat_lastByte]

theorem utf8_of_ge_10000 {cp : CodePoint} (hlo : 0x10000 ≤ cp.toNat) :
    utf8 cp = [0b11110#5 ++ cp.extractLsb' 18 3, 0b10#2 ++ cp.extractLsb' 12 6,
      0b10#2 ++ cp.extractLsb' 6 6, 0b10#2 ++ cp.extractLsb' 0 6] := by
  have hnot1 : ¬ cp.toNat ≤ 0x7F := by omega
  have hnot2 : ¬ cp.toNat ≤ 0x7FF := by omega
  have hnot3 : ¬ cp.toNat ≤ 0xFFFF := by omega
  have hlead : BitVec.ofNat 8 (0xF0 + cp.toNat / 262144) = 0b11110#5 ++ cp.extractLsb' 18 3 :=
    ofNat_leadByte (w := 3) (cp := cp) 0b11110#5 18 (by omega)
  have hsecond : BitVec.ofNat 8 (0x80 + cp.toNat / 4096 % 64) = 0b10#2 ++ cp.extractLsb' 12 6 :=
    ofNat_contByte cp 12
  simp only [utf8, if_neg hnot1, if_neg hnot2, if_neg hnot3, hlead, hsecond, ofNat_nextToLastByte,
    ofNat_lastByte]

/-- Settles O10: each byte is a marker and a field whose sum does not carry; the ranges need no more
than the 21 bits of a character. -/
theorem utf8BytesAreBitFields : Obligations.Utf8BytesAreBitFields := fun _ _ =>
  ⟨utf8_of_le_7F, utf8_of_le_7FF, utf8_of_le_FFFF, utf8_of_ge_10000⟩

/-! ### Packing keeps the bit stream (R105, R53) -/

/-- The residue and the nonet behind it are one number of `c + 9` bits, and cutting that number
keeps its bits. -/
theorem packStep_stream {c : Nat} (hc : c ≤ 7) (r : Nat) (n : Nonet) :
    unpack (packStep r c n).bytes ++ msbBits (packStep r c n).cnt (packStep r c n).res =
      msbBits c r ++ nonetBits n := by
  have hwhole : msbBits (c + 9) (r * 512 + n.toNat) = msbBits c r ++ nonetBits n :=
    msbBits_append c 9 r n.isLt
  rw [← hwhole]
  rcases Nat.lt_or_eq_of_le hc with hlt | rfl
  · have hwidth : c + 9 = 8 + (c + 1) := by omega
    rw [packStep_of_lt hlt, hwidth, msbBits_split 8 (c + 1), unpack_cons, unpack_nil,
      List.append_nil, byteBits_ofNat]
  · rw [packStep_seven, unpack_cons, unpack_cons, unpack_nil, byteBits_ofNat, byteBits_ofNat,
      ← List.append_assoc, ← msbBits_split 8 8, List.append_nil]
    exact List.append_nil _

/-- Nonets packed behind a residue: the bytes and the new residue are the old residue and the
nonets, bit for bit. -/
theorem packNonets_stream (ns : List Nonet) : ∀ {r c : Nat}, c ≤ 7 →
    unpack (packNonets r c ns).bytes ++ msbBits (packNonets r c ns).cnt (packNonets r c ns).res =
      msbBits c r ++ bitsOf ns := by
  induction ns with
  | nil => simp
  | cons n ns ih =>
    intro r c hc
    obtain ⟨-, hcnt, -⟩ := packStep_bits hc r n
    rw [packNonets_cons, unpack_append, List.append_assoc, ih hcnt, ← List.append_assoc,
      packStep_stream hc, List.append_assoc, bitsOf_cons]

/-- Settles O12: the bits are kept one by one, so their number is, and eight bits of residue are a
second byte. -/
theorem packStepKeepsTheBitStream : Obligations.PackStepKeepsTheBitStream := by
  intro r c n hc _
  obtain ⟨hbits, hcnt, hres⟩ := packStep_bits hc r n
  refine ⟨packStep_stream hc r n, hres, by omega, ?_⟩
  split <;> omega

/-! ### `ENC.PUT` (R110 to R112) -/

/-- The encoder moved and no token emitted. -/
theorem encAfter_nil (u : EncUnit) (s : State) : encAfter u [] s = { s with enc := u } := by
  simp [encAfter]

/-- In `FAULT`, nothing (40_encoder.md R111). -/
theorem encPut_goes_of_fault (cp : CodePoint) {u : EncUnit} (h : u.status = .fault) :
    EncGoes (.encPut cp) u u [] := by
  obtain ⟨u', toks, heff, hgoes⟩ := encPut_effect cp u
  cases heff with
  | ignored => exact hgoes
  | raised hrun => rw [h] at hrun; cases hrun
  | packed _ _ hrun => rw [h] at hrun; cases hrun

/-- In `RUN`, no scalar value: the error is recorded (40_encoder.md R110). -/
theorem encPut_goes_of_not_scalar {cp : CodePoint} {u : EncUnit} (h : u.status = .run)
    (hcp : isScalar cp = false) :
    EncGoes (.encPut cp) u { u with status := .fault, cause := ErrorCause.notScalar.code } [] := by
  obtain ⟨u', toks, heff, hgoes⟩ := encPut_effect cp u
  cases heff with
  | ignored hfault => rw [h] at hfault; cases hfault
  | raised => exact hgoes
  | packed _ _ _ hscalar => rw [hcp] at hscalar; cases hscalar

/-- The encoder's registers after packing. -/
def EncUnit.withPacked (p : Packed) (u : EncUnit) : EncUnit :=
  { u with res := BitVec.ofNat 7 p.res, rcnt := BitVec.ofNat 3 p.cnt }

/-- In `RUN`, a scalar value: its nonets are packed behind the residue (40_encoder.md R112). -/
theorem encPut_goes_of_scalar {cp : CodePoint} {u : EncUnit} (h : u.status = .run)
    (hcp : isScalar cp = true) :
    EncGoes (.encPut cp) u
      (u.withPacked (packNonets u.res.toNat u.rcnt.toNat (charNonets cp)))
      ((packNonets u.res.toNat u.rcnt.toNat (charNonets cp)).bytes.map .byte) := by
  obtain ⟨u', toks, heff, hgoes⟩ := encPut_effect cp u
  cases heff with
  | ignored hfault => rw [h] at hfault; cases hfault
  | raised _ hns => rw [hcp] at hns; cases hns
  | packed p hp => subst hp; exact hgoes

/-- What is not a scalar value: a surrogate, or a number past the last code point. -/
theorem isScalar_eq_false_iff {cp : CodePoint} : isScalar cp = false ↔
    (0xD800 ≤ cp.toNat ∧ cp.toNat ≤ 0xDFFF) ∨ 0x10FFFF < cp.toNat := by
  simp only [isScalar, Bool.and_eq_false_iff, Bool.not_eq_false', Bool.and_eq_true,
    decide_eq_true_iff, decide_eq_false_iff_not]
  omega

/-- An operand that is no scalar value, put in `RUN`: `NOT_SCALAR` is recorded, and that is all. -/
theorem exec_encPut_of_not_scalar {cp : CodePoint} {s : State} (h : s.enc.status = .run)
    (hcp : isScalar cp = false) : exec (.encPut cp) s =
      .next { s with enc := { s.enc with status := .fault, cause := 0x05 } } :=
  (encPut_goes_of_not_scalar h hcp s rfl).trans (congrArg _ (encAfter_nil _ s))

/-- In `FAULT` a character put changes nothing. -/
theorem exec_encPut_of_fault (cp : CodePoint) {s : State} (h : s.enc.status = .fault) :
    exec (.encPut cp) s = .next s :=
  (encPut_goes_of_fault cp h s rfl).trans (congrArg _ (encAfter_nil _ s))

/-- Settles O13: a value in either range is no scalar value. -/
theorem encPutNonScalarRaises : Obligations.EncPutNonScalarRaises := fun _ _ hrun hrange =>
  ⟨exec_encPut_of_not_scalar hrun (isScalar_eq_false_iff.mpr hrange), by decide, by decide⟩

/-- Settles O14: the step takes the event, and the command it decodes to does nothing. -/
theorem encPutInFaultDoesNothing : Obligations.EncPutInFaultDoesNothing := by
  intro cp s rest hfault
  refine ⟨exec_encPut_of_fault cp hfault, fun hpending => ?_⟩
  rw [step_of_pending hpending, afterEvent, decodeEncCmd_zero_append]
  exact exec_encPut_of_fault cp hfault

/-- How many bytes a character gives and what length of residue it leaves, behind any residue: its
nonets' bits are conserved, and a residue never reaches a whole byte. -/
theorem packNonets_charNonets_counts (cp : CodePoint) {c : Nat} (hc : c ≤ 7) (r : Nat) :
    (packNonets r c (charNonets cp)).bytes.length =
      utf8Len cp + (if 8 ≤ c + utf8Len cp then 1 else 0) ∧
    (packNonets r c (charNonets cp)).cnt = (c + utf8Len cp) % 8 := by
  have hlen : (charNonets cp).length = utf8Len cp := charNonets_length cp
  obtain ⟨hmin, hmax⟩ : 1 ≤ utf8Len cp ∧ utf8Len cp ≤ 4 := utf8_length_bounds cp
  cases hns : charNonets cp with
  | nil =>
    rw [hns, List.length_nil] at hlen
    omega
  | cons n ns =>
    obtain ⟨hbits, hcnt⟩ := packNonets_cons_bits n ns hc r
    rw [hns, List.length_cons] at hlen
    rw [hlen] at hbits
    constructor
    · split <;> omega
    · omega

/-- Settles O15: the three paths, and the counts of the third. -/
theorem encPutEncodesOneCharacter : Obligations.EncPutEncodesOneCharacter := by
  intro cp s
  refine ⟨exec_encPut_of_fault cp, exec_encPut_of_not_scalar, fun hrun hcp => ?_⟩
  have hc : s.enc.rcnt.toNat ≤ 7 := by omega
  exact ⟨encPut_goes_of_scalar hrun hcp s rfl, packNonets_charNonets_counts cp hc _⟩

/-- What packing leaves fits the encoder's registers. -/
theorem residueBits_withPacked {u : EncUnit} {p : Packed} (hcnt : p.cnt ≤ 7)
    (hres : p.res < 2 ^ p.cnt) : (u.withPacked p).residueBits = msbBits p.cnt p.res := by
  have hcap : p.res < 2 ^ 7 := hres.trans_le (Nat.pow_le_pow_right (by decide) hcnt)
  simp only [EncUnit.residueBits, EncUnit.withPacked, BitVec.toNat_ofNat]
  rw [Nat.mod_eq_of_lt hcap, Nat.mod_eq_of_lt (by omega)]

/-- A scalar value put in `RUN`: nothing but the residue is written, the invariant is kept, and the
bytes emitted and the new residue are the old residue and the bits of the character's nonets. -/
theorem encPut_stream {cp : CodePoint} {u : EncUnit} (hinv : EncInv u) (hrun : u.status = .run)
    (hcp : isScalar cp = true) :
    ∃ (bs : List Byte) (p : Packed),
      EncGoes (.encPut cp) u (u.withPacked p) (bs.map .byte) ∧
      unpack bs ++ (u.withPacked p).residueBits = u.residueBits ++ bitsOf (charNonets cp) ∧
      EncInv (u.withPacked p) := by
  have ⟨hres, _⟩ := hinv
  have hc : u.rcnt.toNat ≤ 7 := by omega
  obtain ⟨-, hcnt', hres'⟩ := packNonets_bits (charNonets cp) hc hres
  refine ⟨_, _, encPut_goes_of_scalar hrun hcp, ?_,
    (EncPutEffect.packed _ rfl hrun hcp).encInv hinv⟩
  rw [residueBits_withPacked hcnt' hres']
  exact packNonets_stream _ hc

/-- Settles O16: the registers after packing differ in the residue alone, and the bits are kept. -/
theorem encPutAppendsTheCharactersBits : Obligations.EncPutAppendsTheCharactersBits := by
  intro cp s hinv hrun hcp
  obtain ⟨bs, p, hgoes, hstream, hinv'⟩ := encPut_stream hinv hrun hcp
  exact ⟨bs, _, _, hgoes s rfl, hstream, hinv'⟩

/-! ### `ENC.END` (R116, R117) -/

/-- The padding byte is the residue with zeros below it. -/
theorem byteBits_padding {c : Nat} (hc : c ≤ 8) (r : Nat) :
    byteBits (BitVec.ofNat 8 (r * 2 ^ (8 - c))) = msbBits c r ++ List.replicate (8 - c) false := by
  have hwidth : c + (8 - c) = 8 := Nat.add_sub_of_le hc
  have hbits := msbBits_append c (8 - c) r (Nat.two_pow_pos (8 - c))
  rw [hwidth, Nat.add_zero, msbBits_zero_right] at hbits
  rw [byteBits_ofNat, hbits]

@[simp] theorem paddingBytes_zero (r : Nat) : paddingBytes r 0 = [] := rfl

theorem paddingBytes_of_pos {c : Nat} (h : 0 < c) (r : Nat) :
    paddingBytes r c = [BitVec.ofNat 8 (r * 2 ^ (8 - c))] :=
  if_pos h

/-- Settles O17: the tokens are those of the status and of the residue's length, and the padding
byte is the residue with zeros below it. -/
theorem encEndPadsReportsAndResets : Obligations.EncEndPadsReportsAndResets := by
  intro s
  have hend : exec .encEnd s = .next (encAfter EncUnit.reset (encEndTokens s.enc) s) :=
    encEnd_goes s.enc s rfl
  refine ⟨fun hrun hcnt => ?_, fun hrun hcnt => ?_, fun hfault => ?_, fun _ _ => ?_⟩
  · rw [hend, encEndTokens_of_run hrun, hcnt]
    rfl
  · have hpos : 0 < s.enc.rcnt.toNat := Nat.pos_of_ne_zero fun h => hcnt (BitVec.eq_of_toNat_eq h)
    rw [hend, encEndTokens_of_run hrun, paddingBytes_of_pos hpos]
    rfl
  · rw [hend, encEndTokens_of_fault hfault]
    rfl
  · exact byteBits_padding (by omega) s.enc.res.toNat

/-- Tokens closed by `DONE` with a cause give the error of the cause, whatever they are. -/
theorem encResult_done_of_ne {c : CauseBits} (hc : c ≠ 0) (ts : List EncToken) :
    encResult (ts ++ [.done c]) = some (.err (causeKind c) (causeSub c)) := by
  simp only [encResult, List.getLast?_concat, resultOf, if_neg hc]

/-- Settles O18: the one cause the invariant allows is `NOT_SCALAR`. -/
theorem encEndInFaultReportsNotScalar : Obligations.EncEndInFaultReportsNotScalar := by
  intro s ⟨_, _, hcause⟩ hfault
  have hcode : s.enc.cause = 0x05 := hcause hfault
  refine ⟨?_, fun bs => encResult_done_of_ne (by decide) _⟩
  rw [encEnd_goes s.enc s rfl, encEndTokens_of_fault hfault, hcode]
  rfl

/-! ### A transaction (R118) -/

/-- Two moves of the encoder are one, with the tokens of both. -/
@[simp] theorem encAfter_encAfter (u v : EncUnit) (ts us : List EncToken) (s : State) :
    encAfter v us (encAfter u ts s) = encAfter v (ts ++ us) s := by
  simp [encAfter]

/-- A text of scalar values put in `RUN`: the encoder alone moves, and the bytes emitted and the
residue at the end are the residue at the start and the bits of the text's nonets. -/
theorem runEvents_encPut_stream (T : List CodePoint) : ∀ {s : State}, s.enc.status = .run →
    EncInv s.enc → (∀ c ∈ T, isScalar c = true) →
    ∃ (u : EncUnit) (bs : List Byte),
      runEvents (T.map fun c => .encCmd (0#1 ++ c)) s =
        .next (putPending [] (encAfter u (bs.map .byte) s)) ∧
      u.status = .run ∧
      unpack bs ++ u.residueBits = s.enc.residueBits ++ bitsOf (textNonets T) := by
  induction T with
  | nil =>
    intro s hrun _ _
    refine ⟨s.enc, [], ?_, hrun, by simp [textNonets]⟩
    rw [List.map_nil, List.map_nil, encAfter_nil]
    rfl
  | cons c T ih =>
    intro s hrun hinv hT
    obtain ⟨hc, hT⟩ := List.forall_mem_cons.mp hT
    obtain ⟨bs, p, hgoes, hstream, hinv'⟩ := encPut_stream hinv hrun hc
    obtain ⟨u, bs', hrest, hrun', hstream'⟩ :=
      ih (s := encAfter (s.enc.withPacked p) (bs.map .byte) s) hrun hinv' hT
    refine ⟨u, bs ++ bs', ?_, hrun', ?_⟩
    · rw [List.map_cons, runEvents_encPut_cons _ (hgoes s rfl), hrest, encAfter_encAfter,
        List.map_append]
    · calc unpack (bs ++ bs') ++ u.residueBits
          = unpack bs ++ (unpack bs' ++ u.residueBits) := by rw [unpack_append, List.append_assoc]
        _ = unpack bs ++ (s.enc.withPacked p).residueBits ++ bitsOf (textNonets T) := by
            rw [hstream', encAfter_enc, List.append_assoc]
        _ = s.enc.residueBits ++ bitsOf (textNonets (c :: T)) := by
            rw [hstream, List.append_assoc, ← bitsOf_append]
            rfl

/-- The bytes `ENC.END` adds in `RUN` are the residue packed (20_memory.md R54). -/
theorem paddingBytes_eq_pack {c : Nat} (hc : c ≤ 7) (r : Nat) :
    paddingBytes r c = pack (msbBits c r) := by
  rcases Nat.eq_zero_or_pos c with rfl | hpos
  · rw [paddingBytes_zero, msbBits, pack_nil]
  · have hlen : (msbBits c r).length = c := msbBits_length c r
    have hne : msbBits c r ≠ [] := List.length_pos_iff.mp (by omega)
    rw [pack_short hne (by omega), hlen, ← byteBits_padding (by omega), ofNat_msbValue_byteBits,
      paddingBytes_of_pos hpos]

/-- The whole transaction over a text of scalar values, begun in the reset state: the bytes put out
on the way and the padding byte are the packed text. -/
theorem runEvents_encodeEvents_of_scalar {T : List CodePoint} {s : State}
    (hs : s.enc = EncUnit.reset) (hT : ∀ c ∈ T, isScalar c = true) :
    runEvents (encodeEvents T) s = .next (putPending []
      (encAfter EncUnit.reset ((pack (bitsOf (textNonets T))).map .byte ++ [.done 0]) s)) := by
  obtain ⟨u, bs, hputs, hrun, hstream⟩ :=
    runEvents_encPut_stream T (s := s) (by rw [hs]; rfl) (hs ▸ encInv_reset) hT
  have hempty : s.enc.residueBits = [] := by rw [hs]; rfl
  rw [hempty, List.nil_append] at hstream
  have hpad : paddingBytes u.res.toNat u.rcnt.toNat = pack u.residueBits :=
    paddingBytes_eq_pack (by omega) _
  have hpack : pack (bitsOf (textNonets T)) = bs ++ paddingBytes u.res.toNat u.rcnt.toNat := by
    rw [← hstream, pack_unpack_append, hpad]
  have htokens : bs.map EncToken.byte ++ encEndTokens u =
      (pack (bitsOf (textNonets T))).map .byte ++ [.done 0] := by
    rw [encEndTokens_of_run hrun, hpack, List.map_append, List.append_assoc]
  rw [runEvents_encodeEvents hputs, ← htokens, ← encAfter_encAfter u]
  rfl

/-- Settles O42: the tokens are the packed text, whose length and padding are those of `9n` bits in
whole bytes. -/
theorem encoderEmitsThePackedText : Obligations.EncoderEmitsThePackedText := by
  intro T s hs hT
  have hlen : (bitsOf (textNonets T)).length = 9 * (textNonets T).length := bitsOf_length _
  obtain ⟨hbytes, hunpack, -⟩ := unpackOfPackAddsOnlyPadding (bitsOf (textNonets T))
  rw [hlen] at hbytes hunpack
  refine ⟨?_, hbytes, ?_⟩
  · rw [runEvents_encodeEvents_of_scalar hs hT, ← hs, List.append_assoc]
    rfl
  · rw [hunpack, List.drop_left' hlen]
    congr 1
    omega

end Sys2Proof.Machine
end

section
/-!
PROOFS for 41_decoder.md. `utf8_decode_one` is compared with `utf8` and with the table of
well-formed sequences length by length, as arithmetic of the bytes' values, and the malformed runs
are read off the table. Each nonet and each command of the decoder has one equation per path; the
paths of `DEC.PUT` compose `unpack_step` with the nonets' paths, and those of `DEC.END` the flush
with the check of the trailing group. From reset the residue is the trailing group of the bytes
put, which is why a bad trailing group is always found.
-/

namespace Sys2Proof.Machine

open Sys2Proof.Safety

/-! ### Unpacking keeps the bit stream (R132, R53) -/

/-- The residue and the byte behind it are one number of `c + 8` bits, and cutting that number keeps
its bits. -/
theorem unpackStep_stream (r c : Nat) (b : Byte) :
    (unpackStep r c b).nonet.elim [] nonetBits
        ++ msbBits (unpackStep r c b).cnt (unpackStep r c b).res = msbBits c r ++ byteBits b := by
  have hwhole : msbBits (c + 8) (r * 256 + b.toNat) = msbBits c r ++ byteBits b :=
    msbBits_append c 8 r b.isLt
  rw [← hwhole]
  cases c with
  | zero => rfl
  | succ c =>
    have hwidth : c + 1 + 8 = 9 + c := by omega
    rw [unpackStep_succ, hwidth, msbBits_split 9 c, Option.elim_some, nonetBits_ofNat]

/-- Settles O19: the bits are kept one by one, and a nonet is cut off exactly when there are nine.
-/
theorem unpackStepKeepsTheBitStream : Obligations.UnpackStepKeepsTheBitStream := by
  intro r c b _ hr
  refine ⟨unpackStep_stream r c b, ?_⟩
  cases c with
  | zero =>
    rw [unpackStep_zero]
    refine ⟨by simp, ?_, rfl⟩
    simp only
    omega
  | succ c =>
    rw [unpackStep_succ]
    exact ⟨by simp, Nat.mod_lt _ (Nat.two_pow_pos c), by simp⟩

theorem nonetBits_injective : Function.Injective nonetBits :=
  Function.LeftInverse.injective (g := fun s => BitVec.ofNat 9 (msbValue s))
    ofNat_msbValue_nonetBits

/-- Numbers that fit their width are determined by their bits. -/
theorem eq_of_msbBits_eq {w v v' : Nat} (hv : v < 2 ^ w) (hv' : v' < 2 ^ w)
    (h : msbBits w v = msbBits w v') : v = v' :=
  calc v = msbValue (msbBits w v) := by rw [msbValue_msbBits, Nat.mod_eq_of_lt hv]
    _ = msbValue (msbBits w v') := by rw [h]
    _ = v' := by rw [msbValue_msbBits, Nat.mod_eq_of_lt hv']

/-- The bits determine what `unpack_step` answers: the nonet and the residue into which they are
cut. -/
theorem unpackStep_eq_of_stream {r c r' : Nat} {b : Byte} {n : Nonet} (hr' : r' < 2 ^ c)
    (h : msbBits (c + 1) r ++ byteBits b = nonetBits n ++ msbBits c r') :
    unpackStep r (c + 1) b = ⟨some n, r', c⟩ := by
  have hstream := (unpackStep_stream r (c + 1) b).trans h
  rw [unpackStep_succ] at hstream ⊢
  obtain ⟨hnonet, hres⟩ := List.append_inj hstream (by simp)
  rw [nonetBits_injective hnonet, eq_of_msbBits_eq (Nat.mod_lt _ (Nat.two_pow_pos c)) hr' hres]

/-! ### One character (R140, R73) -/

/-- What is a scalar value, as bounds (00_scope.md R11). -/
theorem isScalar_iff {cp : CodePoint} : isScalar cp = true ↔
    cp.toNat ≤ 0x10FFFF ∧ ¬(0xD800 ≤ cp.toNat ∧ cp.toNat ≤ 0xDFFF) := by
  rw [← Bool.not_eq_false, isScalar_eq_false_iff]
  omega

/-- A guarded candidate is a character exactly when the guard holds, and then it is the candidate.
-/
theorem guardCp_eq_some_iff {ok : Bool} {n : Nat} {cp : CodePoint} (hn : n < 2 ^ 21) :
    guardCp ok n = some cp ↔ ok = true ∧ cp.toNat = n := by
  have hval : (BitVec.ofNat 21 n).toNat = n := by rw [BitVec.toNat_ofNat, Nat.mod_eq_of_lt hn]
  cases ok with
  | false => simp [guardCp]
  | true => simp [guardCp, ← BitVec.toNat_inj, hval, eq_comm]

theorem isSome_guardCp (ok : Bool) (n : Nat) : (guardCp ok n).isSome = ok := by
  cases ok <;> rfl

/-- The values of the bytes of a UTF-8 form: none of the sums of 40_encoder.md R101 overflows. -/
theorem map_toNat_utf8 (cp : CodePoint) : (utf8 cp).map BitVec.toNat =
    if cp.toNat ≤ 0x7F then [cp.toNat]
    else if cp.toNat ≤ 0x7FF then [0xC0 + cp.toNat / 64, 0x80 + cp.toNat % 64]
    else if cp.toNat ≤ 0xFFFF then
      [0xE0 + cp.toNat / 4096, 0x80 + cp.toNat / 64 % 64, 0x80 + cp.toNat % 64]
    else [0xF0 + cp.toNat / 262144, 0x80 + cp.toNat / 4096 % 64, 0x80 + cp.toNat / 64 % 64,
      0x80 + cp.toNat % 64] := by
  have hcp : cp.toNat < 2 ^ 21 := cp.isLt
  simp only [utf8]
  split_ifs <;> simp only [List.map_cons, List.map_nil, BitVec.toNat_ofNat, List.cons.injEq,
    and_true] <;> omega

theorem eq_utf8_iff {bs : List Byte} {cp : CodePoint} :
    bs = utf8 cp ↔ bs.map BitVec.toNat = (utf8 cp).map BitVec.toNat :=
  (List.map_injective_iff.mpr fun _ _ => BitVec.eq_of_toNat_eq).eq_iff.symm

theorem isContByte_iff {b : Byte} : isContByte b = true ↔ 0x80 ≤ b.toNat ∧ b.toNat ≤ 0xBF := by
  simp [isContByte]

/-- `utf8_decode_one` inverts `utf8`: at each length both sides are bounds on the candidate number
and on the bytes it is made of. -/
theorem utf8DecodeOne_eq_some_iff {bs : List Byte} {cp : CodePoint} :
    utf8DecodeOne bs = some cp ↔ isScalar cp = true ∧ bs = utf8 cp := by
  rw [isScalar_iff, eq_utf8_iff, map_toNat_utf8]
  match bs with
  | [] => split_ifs <;> simp [utf8DecodeOne]
  | [_] | [_, _] | [_, _, _] | [_, _, _, _] =>
    refine (guardCp_eq_some_iff (by omega)).trans ?_
    simp only [Bool.and_eq_true, Bool.not_eq_true', Bool.and_eq_false_iff, decide_eq_true_eq,
      decide_eq_false_iff_not, isContByte_iff]
    split_ifs <;> simp <;> omega
  | _ :: _ :: _ :: _ :: _ :: _ => split_ifs <;> simp [utf8DecodeOne]

theorem inRange_iff {lo hi : Nat} {b : Byte} :
    inRange lo hi b = true ↔ lo ≤ b.toNat ∧ b.toNat ≤ hi := by
  simp [inRange]

/-- The guards of `utf8_decode_one` are the rows of the second table of 30_encoding.md R73. -/
theorem isSome_utf8DecodeOne (bs : List Byte) : (utf8DecodeOne bs).isSome = wellFormedUtf8 bs := by
  match bs with
  | [] => rfl
  | [_] | [_, _] | [_, _, _] | [_, _, _, _] =>
    rw [utf8DecodeOne, isSome_guardCp, Bool.eq_iff_iff]
    simp only [wellFormedUtf8, utf8Table, List.any_cons, List.any_nil, matchesRanges, inRange_iff,
      isContByte_iff, Bool.and_eq_true, Bool.or_eq_true, Bool.not_eq_true', Bool.and_eq_false_iff,
      decide_eq_true_eq, decide_eq_false_iff_not, Bool.false_eq_true, and_false, and_true, or_false,
      false_or]
    omega
  | _ :: _ :: _ :: _ :: _ :: _ => simp [utf8DecodeOne, wellFormedUtf8, utf8Table, matchesRanges]

/-- Settles O20: the inverse, and the table, length by length. -/
theorem utf8DecodeOneInvertsUtf8 : Obligations.Utf8DecodeOneInvertsUtf8 :=
  ⟨fun _ _ => utf8DecodeOne_eq_some_iff, isSome_utf8DecodeOne⟩

/-! ### The malformed runs (R147) -/

/-- A byte matches the first range of a row, and the bytes behind it match the others. -/
theorem matchesRanges_cons_iff {row : List (Nat × Nat)} {b : Byte} {bs : List Byte} :
    matchesRanges row (b :: bs) = true ↔ ∃ r rs, row = r :: rs ∧
      (r.1 ≤ b.toNat ∧ b.toNat ≤ r.2) ∧ matchesRanges rs bs = true := by
  cases row <;> simp [matchesRanges, inRange_iff]

theorem matchesRanges_length {bs : List Byte} : ∀ {row : List (Nat × Nat)},
    matchesRanges row bs = true → bs.length = row.length := by
  induction bs with
  | nil => intro row h; cases row <;> simp_all [matchesRanges]
  | cons b bs ih =>
    intro row h
    obtain ⟨r, rs, rfl, -, hrest⟩ := matchesRanges_cons_iff.mp h
    rw [List.length_cons, List.length_cons, ih hrest]

/-- Every byte of a sequence that matches a row lies in one of the row's ranges. -/
theorem exists_range_of_mem {b : Byte} {bs : List Byte} (hb : b ∈ bs) :
    ∀ {row : List (Nat × Nat)}, matchesRanges row bs = true →
      ∃ r ∈ row, r.1 ≤ b.toNat ∧ b.toNat ≤ r.2 := by
  induction bs with
  | nil => cases hb
  | cons c bs ih =>
    intro row h
    obtain ⟨r, rs, rfl, hr, hrest⟩ := matchesRanges_cons_iff.mp h
    rcases List.mem_cons.mp hb with rfl | hb
    · exact ⟨r, List.mem_cons_self, hr⟩
    · obtain ⟨q, hq, hqb⟩ := ih hb hrest
      exact ⟨q, List.mem_cons_of_mem r hq, hqb⟩

/-- Each row of the table: the lead bytes of one length, and that length. -/
theorem utf8Table_length : ∀ row ∈ utf8Table, ∀ r ∈ row.head?,
    (r.2 ≤ 0x7F ∧ row.length = 1) ∨
    (0xC2 ≤ r.1 ∧ r.2 ≤ 0xDF ∧ row.length = 2) ∨
    (0xE0 ≤ r.1 ∧ r.2 ≤ 0xEF ∧ row.length = 3) ∨
    (0xF0 ≤ r.1 ∧ r.2 ≤ 0xF4 ∧ row.length = 4) := by decide

/-- Each row of the table: the later bytes are continuation bytes. -/
theorem utf8Table_later : ∀ row ∈ utf8Table, ∀ r ∈ row.tail, 0x80 ≤ r.1 ∧ r.2 ≤ 0xBF := by decide

/-- Each row of the table: the lead bytes that bound the second byte further. -/
theorem utf8Table_second : ∀ row ∈ utf8Table, ∀ r ∈ row.head?, ∀ q ∈ row.tail.head?,
    (r.1 ≤ 0xE0 → 0xE0 ≤ r.2 → 0xA0 ≤ q.1) ∧ (r.1 ≤ 0xED → 0xED ≤ r.2 → q.2 ≤ 0x9F) ∧
    (r.1 ≤ 0xF0 → 0xF0 ≤ r.2 → 0x90 ≤ q.1) ∧ (r.1 ≤ 0xF4 → 0xF4 ≤ r.2 → q.2 ≤ 0x8F) := by decide

/-- The row of the table that a run which is one character matches. -/
theorem exists_utf8Table_row {b0 : Byte} {bs : List Byte}
    (h : (utf8DecodeOne (b0 :: bs)).isSome = true) :
    ∃ r rs, r :: rs ∈ utf8Table ∧ (r.1 ≤ b0.toNat ∧ b0.toNat ≤ r.2) ∧
      matchesRanges rs bs = true := by
  rw [isSome_utf8DecodeOne] at h
  obtain ⟨row, hrow, hmatch⟩ := List.any_eq_true.mp h
  obtain ⟨r, rs, rfl, hlead, hlater⟩ := matchesRanges_cons_iff.mp hmatch
  exact ⟨r, rs, hrow, hlead, hlater⟩

/-- A run that is one character has the length its first byte demands. -/
theorem utf8Run_length {b0 : Byte} {bs : List Byte} (h : (utf8DecodeOne (b0 :: bs)).isSome = true) :
    (b0.toNat ≤ 0x7F ∧ bs.length = 0) ∨
    (0xC2 ≤ b0.toNat ∧ b0.toNat ≤ 0xDF ∧ bs.length = 1) ∨
    (0xE0 ≤ b0.toNat ∧ b0.toNat ≤ 0xEF ∧ bs.length = 2) ∨
    (0xF0 ≤ b0.toNat ∧ b0.toNat ≤ 0xF4 ∧ bs.length = 3) := by
  obtain ⟨r, rs, hrow, hlead, hlater⟩ := exists_utf8Table_row h
  have hlen := utf8Table_length _ hrow r rfl
  rw [List.length_cons, ← matchesRanges_length hlater] at hlen
  omega

/-- The later bytes of a run that is one character are continuation bytes. -/
theorem utf8Run_later {b0 : Byte} {bs : List Byte} (h : (utf8DecodeOne (b0 :: bs)).isSome = true)
    {b : Byte} (hb : b ∈ bs) : 0x80 ≤ b.toNat ∧ b.toNat ≤ 0xBF := by
  obtain ⟨r, rs, hrow, -, hlater⟩ := exists_utf8Table_row h
  obtain ⟨q, hq, hqb⟩ := exists_range_of_mem hb hlater
  have hrange := utf8Table_later _ hrow q hq
  omega

/-- The second byte of a run that is one character makes it no shorter form, no surrogate and no
number past the last code point. -/
theorem utf8Run_second {b0 b1 : Byte} {tl : List Byte}
    (h : (utf8DecodeOne (b0 :: b1 :: tl)).isSome = true) :
    (b0.toNat = 0xE0 → 0xA0 ≤ b1.toNat) ∧ (b0.toNat = 0xED → b1.toNat ≤ 0x9F) ∧
    (b0.toNat = 0xF0 → 0x90 ≤ b1.toNat) ∧ (b0.toNat = 0xF4 → b1.toNat ≤ 0x8F) := by
  obtain ⟨r, rs, hrow, hlead, hlater⟩ := exists_utf8Table_row h
  obtain ⟨q, qs, rfl, hq, -⟩ := matchesRanges_cons_iff.mp hlater
  have hrange := utf8Table_second _ hrow r rfl q rfl
  omega

/-- Settles O21: each run contradicts what the row it would match says of it. -/
theorem malformedRunsAreNoCharacter : Obligations.MalformedRunsAreNoCharacter := by
  intro b0 bs
  simp only [← Option.not_isSome_iff_eq_none]
  refine ⟨fun _ h => ?_, fun _ _ h => ?_, fun _ _ _ h => ?_, fun _ _ _ h => ?_, fun _ _ _ h => ?_,
    fun b hb _ h => ?later, ?second, fun _ h => ?_⟩
  case later =>
    have hrange := utf8Run_later h hb
    omega
  case second =>
    rintro b1 tl rfl
    refine ⟨fun _ _ h => ?_, fun _ _ h => ?_, fun _ _ h => ?_, fun _ _ h => ?_⟩
    all_goals
      have hsecond := utf8Run_second h
      omega
  all_goals
    have hlength := utf8Run_length h
    omega

/-! ### The flush (R141) -/

theorem ne_nil_of_utf8DecodeOne {bs : List Byte} {cp : CodePoint} (h : utf8DecodeOne bs = some cp) :
    bs ≠ [] := by
  rintro rfl
  cases h

theorem flushIfAny_of_nil {rest : State → State} {s : State} (h : s.dec.acc = []) :
    flushIfAny rest s = rest s := by
  simp [flushIfAny, h]

theorem flushIfAny_of_ne_nil {rest : State → State} {s : State} (h : s.dec.acc ≠ []) :
    flushIfAny rest s = flushThen rest s :=
  if_pos (List.length_pos_iff.mpr h)

theorem flushIfAny_of_some {rest : State → State} {s : State} {cp : CodePoint}
    (h : utf8DecodeOne s.dec.acc = some cp) : flushIfAny rest s = rest (emitDec [.char cp] s) :=
  (flushIfAny_of_ne_nil (ne_nil_of_utf8DecodeOne h)).trans (flushThen_of_some h)

theorem flushIfAny_of_none {rest : State → State} {s : State} (hacc : s.dec.acc ≠ [])
    (h : utf8DecodeOne s.dec.acc = none) : flushIfAny rest s = raise .dec .badRun s :=
  (flushIfAny_of_ne_nil hacc).trans (flushThen_of_none h)

/-! ### The nonets (R135, R136) -/

theorem exec_nonetStart_of_nil (d : Byte) {s : State} (h : s.dec.acc = []) :
    exec (.nonetStart d) s = .next { s with dec := { s.dec with acc := [d] } } :=
  congrArg Host.Outcome.next (flushIfAny_of_nil h)

theorem exec_nonetStart_of_some (d : Byte) {s : State} {cp : CodePoint}
    (h : utf8DecodeOne s.dec.acc = some cp) :
    exec (.nonetStart d) s =
      .next { s with dec := { s.dec with acc := [d] }, decOut := s.decOut ++ [.char cp] } :=
  congrArg Host.Outcome.next (flushIfAny_of_some h)

theorem exec_nonetStart_of_none (d : Byte) {s : State} (hacc : s.dec.acc ≠ [])
    (h : utf8DecodeOne s.dec.acc = none) :
    exec (.nonetStart d) s =
      .next { s with dec := { s.dec with status := .fault, cause := 0x0A } } :=
  congrArg Host.Outcome.next (flushIfAny_of_none hacc h)

/-- Settles O22: the three paths of the flush. -/
theorem nonetStartFlushesAndBeginsARun : Obligations.NonetStartFlushesAndBeginsARun := fun d _ _ =>
  ⟨exec_nonetStart_of_nil d, fun _ _ => exec_nonetStart_of_some d, exec_nonetStart_of_none d⟩

theorem exec_nonetCont_of_empty (d : Byte) {s : State} (h : s.dec.alen = 0) :
    exec (.nonetCont d) s =
      .next { s with dec := { s.dec with status := .fault, cause := 0x06 } } :=
  if_pos h

theorem exec_nonetCont_of_full (d : Byte) {s : State} (h : s.dec.alen = 4) :
    exec (.nonetCont d) s =
      .next { s with dec := { s.dec with status := .fault, cause := 0x0A } } := by
  have h0 : s.dec.alen ≠ 0 := by omega
  exact (if_neg h0).trans (if_pos h)

theorem exec_nonetCont_of_held (d : Byte) {s : State} (hmin : 1 ≤ s.dec.alen)
    (hmax : s.dec.alen ≤ 3) :
    exec (.nonetCont d) s = .next { s with dec := { s.dec with acc := s.dec.acc ++ [d] } } := by
  have h0 : s.dec.alen ≠ 0 := by omega
  have h4 : s.dec.alen ≠ 4 := by omega
  exact (if_neg h0).trans (if_neg h4)

/-- Settles O23: the three ranges of the accumulator's length. -/
theorem nonetContExtendsTheRun : Obligations.NonetContExtendsTheRun := fun d _ _ =>
  ⟨exec_nonetCont_of_empty d, exec_nonetCont_of_full d, exec_nonetCont_of_held d⟩

/-! ### `DEC.PUT` (R130, R131) -/

theorem exec_decPut_of_fault (b : Byte) {s : State} (h : s.dec.status = .fault) :
    exec (.decPut b) s = .next s := by
  simp [exec, execDecPut, h]

/-- Settles O25: the step takes the event, and the command it decodes to does nothing. -/
theorem decPutInFaultDoesNothing : Obligations.DecPutInFaultDoesNothing := by
  intro b s rest hfault
  refine ⟨exec_decPut_of_fault b hfault, fun hpending => ?_⟩
  rw [step_of_pending hpending, afterEvent, decodeDecCmd_zero_append]
  exact exec_decPut_of_fault b hfault

/-- A byte that completes no nonet advances the residue, and that is all. -/
theorem exec_decPut_of_none {b : Byte} {s : State} (hrun : s.dec.status = .run)
    (h : (unpackStep s.dec.res.toNat s.dec.rcnt.toNat b).nonet = none) :
    exec (.decPut b) s = .next (setDecResidue
      (unpackStep s.dec.res.toNat s.dec.rcnt.toNat b).res
      (unpackStep s.dec.res.toNat s.dec.rcnt.toNat b).cnt s) := by
  simp [exec, execDecPut, hrun, h]

/-- A nonet completed is executed as the instruction it decodes to, with the residue advanced. -/
theorem exec_decPut_of_some {b : Byte} {s : State} {n : Nonet} (hrun : s.dec.status = .run)
    (h : (unpackStep s.dec.res.toNat s.dec.rcnt.toNat b).nonet = some n) :
    exec (.decPut b) s = exec (decodeNonet n) (setDecResidue
      (unpackStep s.dec.res.toNat s.dec.rcnt.toNat b).res
      (unpackStep s.dec.res.toNat s.dec.rcnt.toNat b).cnt s) := by
  rw [← executeNonet_eq_exec]
  simp [exec, execDecPut, hrun, h]

/-- Settles O26: the paths of the byte, and the bound on the tokens of its effect. -/
theorem decPutExecutesTheCompletedNonet : Obligations.DecPutExecutesTheCompletedNonet := by
  intro b s
  refine ⟨exec_decPut_of_fault b, fun hrun => ⟨exec_decPut_of_none hrun,
    fun _ => exec_decPut_of_some hrun⟩, ?_⟩
  obtain ⟨u', toks, heff, hgoes⟩ := decPut_effect b s.dec
  refine ⟨_, hgoes s rfl, ?_⟩
  obtain ⟨cps, rfl, hlen⟩ := heff.atMostOneChar
  match cps, hlen with
  | [], _ => exact .inl (List.append_nil _)
  | [cp], _ => exact .inr ⟨cp, rfl⟩

/-- The decoder moved and no token emitted. -/
theorem decAfter_nil (u : DecUnit) (s : State) : decAfter u [] s = { s with dec := u } := by
  simp [decAfter]

/-- Behind an empty residue the byte becomes the residue, whatever the residue's bits were. -/
theorem exec_decPut_of_rcnt_zero (b : Byte) {s : State} (hrun : s.dec.status = .run)
    (h : s.dec.rcnt = 0) :
    exec (.decPut b) s = .next { s with dec := { s.dec with res := b, rcnt := 8 } } := by
  obtain ⟨u', toks, heff, hgoes⟩ := decPut_effect b s.dec
  rw [hgoes s rfl]
  cases heff with
  | ignored hfault => rw [hrun] at hfault; cases hfault
  | buffered => rw [decAfter_nil]
  | completed r c _ hcnt => simp [h] at hcnt

/-- Behind a residue, the nonet into which the bits of residue and byte are cut is executed, with
the bits behind it as the residue. -/
theorem exec_decPut_of_stream {b : Byte} {s : State} {n : Nonet} {r : BitVec 8} {c : BitVec 4}
    (hrun : s.dec.status = .run) (hr : r.toNat < 2 ^ c.toNat)
    (hcnt : s.dec.rcnt.toNat = c.toNat + 1)
    (hbits : s.dec.residueBits ++ byteBits b = nonetBits n ++ msbBits c.toNat r.toNat) :
    exec (.decPut b) s =
      exec (decodeNonet n) { s with dec := { s.dec with res := r, rcnt := c } } := by
  rw [DecUnit.residueBits, hcnt] at hbits
  have hstep : unpackStep s.dec.res.toNat s.dec.rcnt.toNat b = ⟨some n, r.toNat, c.toNat⟩ := by
    rw [hcnt]
    exact unpackStep_eq_of_stream hr hbits
  rw [exec_decPut_of_some hrun (congrArg Unpacked.nonet hstep), hstep, setDecResidue,
    BitVec.ofNat_toNat, BitVec.setWidth_eq, BitVec.ofNat_toNat, BitVec.setWidth_eq]

theorem decodeNonet_of_flag {n : Nonet} (h : nonetFlag n = true) :
    decodeNonet n = .nonetCont (nonetData n) :=
  if_pos h

theorem decodeNonet_of_not_flag {n : Nonet} (h : nonetFlag n = false) :
    decodeNonet n = .nonetStart (nonetData n) :=
  if_neg (Bool.eq_false_iff.mp h)

/-- Settles O27: the bits determine the nonet executed, and its paths are those of its kind. -/
theorem decPutCompletes : Obligations.DecPutCompletes := by
  intro b s hrun
  refine ⟨exec_decPut_of_rcnt_zero b hrun, fun n r c _ _ hr hcnt hbits => ?_⟩
  rw [exec_decPut_of_stream hrun hr hcnt hbits]
  refine ⟨fun hflag hacc => ?_, fun cp hflag hcp => ?_, fun hflag hmin hmax => ?_⟩
  · rw [decodeNonet_of_not_flag hflag]
    exact exec_nonetStart_of_nil _ hacc
  · rw [decodeNonet_of_not_flag hflag]
    exact exec_nonetStart_of_some _ hcp
  · rw [decodeNonet_of_flag hflag]
    exact exec_nonetCont_of_held _ hmin hmax

/-! ### The named states (R138) -/

theorem namedState_eq_awaitingStart_iff {u : DecUnit} :
    u.namedState = .awaitingStart ↔ u.status = .run ∧ u.acc = [] := by
  cases hst : u.status <;> simp [DecUnit.namedState, hst]

theorem namedState_eq_accumulating_iff {u : DecUnit} {bs : List Byte} :
    u.namedState = .accumulating bs ↔ u.status = .run ∧ u.acc = bs ∧ bs ≠ [] := by
  cases hst : u.status with
  | fault => simp [DecUnit.namedState, hst]
  | run =>
    by_cases hacc : u.acc = []
    · simp [DecUnit.namedState, hst, hacc, eq_comm]
    · simp only [DecUnit.namedState, hst, DecUnit.alen_eq, List.length_eq_zero_iff, if_neg hacc,
        DecoderState.accumulating.injEq, true_and, iff_self_and]
      rintro rfl
      exact hacc

theorem namedState_eq_fault_iff {u : DecUnit} : u.namedState = .fault ↔ u.status = .fault := by
  cases hst : u.status with
  | fault => simp [DecUnit.namedState, hst]
  | run =>
    simp only [DecUnit.namedState, hst]
    split <;> simp

/-- A byte put that does not fault leaves a run held if one was held before. -/
theorem DecPutEffect.acc_ne_nil {b : Byte} {u u' : DecUnit} {toks : List DecToken}
    (h : DecPutEffect b u u' toks) (hacc : u.acc ≠ []) (hrun : u'.status = .run) : u'.acc ≠ [] := by
  cases h with
  | ignored => exact hacc
  | buffered => exact hacc
  | completed _ _ _ _ _ hnonet => exact hnonet.acc_ne_nil hrun

/-- No nonet and no byte leads from a run held to none. -/
theorem acc_ne_nil_of_exec {i : Instr} {d : Byte} {s t : State}
    (hi : i ∈ [.nonetStart d, .nonetCont d, .decPut d]) (hacc : s.dec.acc ≠ [])
    (h : exec i s = .next t) (hrun : t.dec.status = .run) : t.dec.acc ≠ [] := by
  simp only [List.mem_cons, List.not_mem_nil, or_false] at hi
  rcases hi with rfl | rfl | rfl
  · obtain ⟨u', toks, heff, hgoes⟩ := nonetStart_effect d s.dec
    cases (hgoes s rfl).symm.trans h
    exact heff.acc_ne_nil hrun
  · obtain ⟨u', toks, heff, hgoes⟩ := nonetCont_effect d s.dec
    cases (hgoes s rfl).symm.trans h
    exact heff.acc_ne_nil hrun
  · obtain ⟨u', toks, heff, hgoes⟩ := decPut_effect d s.dec
    cases (hgoes s rfl).symm.trans h
    exact heff.acc_ne_nil hacc hrun

/-- Settles O24: each row is the path of its nonet or command from the registers that the named
state stands for. -/
theorem namedStatesFollowTheTable : Obligations.NamedStatesFollowTheTable := by
  intro s d
  refine ⟨fun hs => ?_, fun bs hs _ => ?_, fun hs => ?_, ?_, fun bs i t hs hi ht htn => ?_⟩
  · obtain ⟨hrun, hacc⟩ := namedState_eq_awaitingStart_iff.mp hs
    have h0 : s.dec.alen = 0 := List.length_eq_zero_iff.mpr hacc
    exact ⟨⟨_, exec_nonetStart_of_nil d hacc,
        namedState_eq_accumulating_iff.mpr ⟨hrun, rfl, by simp⟩, rfl⟩,
      ⟨_, exec_nonetCont_of_empty d h0, namedState_eq_fault_iff.mpr rfl, rfl, rfl⟩⟩
  · obtain ⟨hrun, rfl, hacc⟩ := namedState_eq_accumulating_iff.mp hs
    have hpos : 1 ≤ s.dec.alen := List.length_pos_iff.mpr hacc
    refine ⟨fun cp hcp => ?_, fun hnone => ?_, fun hlt => ?_, fun hfull => ?_⟩
    · exact ⟨_, exec_nonetStart_of_some d hcp,
        namedState_eq_accumulating_iff.mpr ⟨hrun, rfl, by simp⟩, rfl⟩
    · exact ⟨_, exec_nonetStart_of_none d hacc hnone, namedState_eq_fault_iff.mpr rfl, rfl, rfl⟩
    · exact ⟨_, exec_nonetCont_of_held d hpos (Nat.le_of_lt_succ hlt),
        namedState_eq_accumulating_iff.mpr ⟨hrun, rfl, by simp⟩, rfl⟩
    · exact ⟨_, exec_nonetCont_of_full d hfull, namedState_eq_fault_iff.mpr rfl, rfl, rfl⟩
  · exact ⟨_, exec_decPut_of_fault d (namedState_eq_fault_iff.mp hs), hs, rfl⟩
  · obtain ⟨toks, -, hgoes⟩ := decEnd_effect s.dec
    exact ⟨_, hgoes s rfl, rfl⟩
  · obtain ⟨-, rfl, hacc⟩ := namedState_eq_accumulating_iff.mp hs
    obtain ⟨hrun', hacc'⟩ := namedState_eq_awaitingStart_iff.mp htn
    exact acc_ne_nil_of_exec hi hacc ht hrun' hacc'

/-! ### `DEC.END` (R148 to R152) -/

theorem checkTrailing_of_eight {s : State} (h : s.dec.rcnt = 8) :
    checkTrailing s = raise .dec .badLength s :=
  if_pos h

theorem checkTrailing_of_ones {s : State} (h8 : s.dec.rcnt ≠ 8) (h0 : s.dec.rcnt ≠ 0)
    (hres : s.dec.res ≠ 0) : checkTrailing s = raise .dec .badPad s := by
  have hpos : 1 ≤ s.dec.rcnt.toNat := Nat.pos_of_ne_zero fun h => h0 (BitVec.eq_of_toNat_eq h)
  exact (if_neg h8).trans (if_pos ⟨hpos, hres⟩)

theorem checkTrailing_of_zeros {s : State} (h8 : s.dec.rcnt ≠ 8)
    (h : s.dec.rcnt = 0 ∨ s.dec.res = 0) : checkTrailing s = s := by
  have hclean : ¬ (1 ≤ s.dec.rcnt.toNat ∧ s.dec.res ≠ 0) := by
    rcases h with h | h <;> simp [h]
  exact (if_neg h8).trans (if_neg hclean)

/-- The tokens of a flush that succeeds, by the run held. -/
def FlushEmits (acc : List Byte) (chs : List DecToken) : Prop :=
  (acc = [] ∧ chs = []) ∨ ∃ cp, utf8DecodeOne acc = some cp ∧ chs = [.char cp]

theorem flushIfAny_of_emits {rest : State → State} {s : State} {chs : List DecToken}
    (h : FlushEmits s.dec.acc chs) : flushIfAny rest s = rest (emitDec chs s) := by
  rcases h with ⟨hacc, rfl⟩ | ⟨cp, hcp, rfl⟩
  · rw [flushIfAny_of_nil hacc, emitDec, List.append_nil]
  · exact flushIfAny_of_some hcp

theorem exec_decEnd_of_fault {s : State} (h : s.dec.status = .fault) :
    exec .decEnd s = .next (decEndReport s) := by
  simp [exec, execDecEnd, h]

theorem exec_decEnd_of_run {s : State} (h : s.dec.status = .run) :
    exec .decEnd s = .next (decEndReport (flushIfAny checkTrailing s)) := by
  simp [exec, execDecEnd, h, decEndChecks]

/-- The trailing group is judged once the run held is flushed. -/
theorem exec_decEnd_of_emits {s : State} {chs : List DecToken} (hrun : s.dec.status = .run)
    (h : FlushEmits s.dec.acc chs) :
    exec .decEnd s = .next (decEndReport (checkTrailing (emitDec chs s))) := by
  rw [exec_decEnd_of_run hrun, flushIfAny_of_emits h]

/-- Settles O29: the report alone. -/
theorem decEndInFaultReportsTheFirstError : Obligations.DecEndInFaultReportsTheFirstError :=
  fun _ => exec_decEnd_of_fault

/-- Settles O28: the flush, the check of the trailing group and the report, path by path. -/
theorem decEndChecksReportsAndResets : Obligations.DecEndChecksReportsAndResets := by
  refine fun s => ⟨fun hrun hacc hnone => ?_, fun chs hrun hchs => ⟨fun h8 => ?_,
    fun h8 h0 hres => ?_, fun h8 hclean => ⟨?_, fun ⟨_, _, _, hstatus, _⟩ => hstatus.mp hrun⟩⟩,
    exec_decEnd_of_fault⟩
  · rw [exec_decEnd_of_run hrun, flushIfAny_of_none hacc hnone]
    rfl
  · rw [exec_decEnd_of_emits hrun hchs, checkTrailing_of_eight (s := emitDec chs s) h8]
    rfl
  · rw [exec_decEnd_of_emits hrun hchs, checkTrailing_of_ones (s := emitDec chs s) h8 h0 hres]
    rfl
  · rw [exec_decEnd_of_emits hrun hchs, checkTrailing_of_zeros (s := emitDec chs s) h8 hclean]
    rfl

/-! ### A bad trailing group (R148, R149) -/

/-- No nonet changes the residue. -/
theorem NonetEffect.residueBits_eq {u u' : DecUnit} {toks : List DecToken}
    (h : NonetEffect u u' toks) : u'.residueBits = u.residueBits := by
  cases h with
  | start d hflush => cases hflush <;> rfl
  | leadingCont => rfl
  | badRun => rfl
  | extended d hlen => rfl

/-- A residue that fits is held as it stands. -/
theorem residueBits_setDecResidue {r c : Nat} (hc : c ≤ 8) (hr : r < 2 ^ c) (s : State) :
    (setDecResidue r c s).dec.residueBits = msbBits c r := by
  have hcap : r < 2 ^ 8 := hr.trans_le (Nat.pow_le_pow_right (by decide) hc)
  simp only [DecUnit.residueBits, setDecResidue_dec, BitVec.toNat_ofNat]
  rw [Nat.mod_eq_of_lt hcap, Nat.mod_eq_of_lt (by omega)]

/-- A byte put in `RUN`: the nonet it completes, if any, and the new residue are the old residue and
the byte, bit for bit, even when that nonet faults (41_decoder.md R131). -/
theorem residueBits_of_exec_decPut {b : Byte} {s t : State} (hinv : DecInv s.dec)
    (hrun : s.dec.status = .run) (h : exec (.decPut b) s = .next t) :
    ∃ N, bitsOf N ++ t.dec.residueBits = s.dec.residueBits ++ byteBits b := by
  obtain ⟨hres, hcnt, -⟩ := hinv
  obtain ⟨hstream, -, hfit, hcnt'⟩ :=
    unpackStepKeepsTheBitStream s.dec.res.toNat s.dec.rcnt.toNat b hcnt hres
  have hadvanced := residueBits_setDecResidue (by split at hcnt' <;> omega) hfit s
  cases hn : (unpackStep s.dec.res.toNat s.dec.rcnt.toNat b).nonet with
  | none =>
    rw [exec_decPut_of_none hrun hn] at h
    cases h
    rw [hn] at hstream
    exact ⟨[], by rw [hadvanced]; exact hstream⟩
  | some n =>
    rw [exec_decPut_of_some hrun hn] at h
    obtain ⟨u', toks, heff, hgoes⟩ := decodeNonet_effect n (setDecResidue _ _ s).dec
    cases (hgoes _ rfl).symm.trans h
    rw [hn] at hstream
    refine ⟨[n], ?_⟩
    rw [decAfter_dec, heff.residueBits_eq, hadvanced, bitsOf_cons, bitsOf_nil, List.append_nil]
    exact hstream

/-- The decoder has been put the bit stream `S`: it keeps its invariant, and in `RUN` its residue is
what whole nonets leave of `S`. -/
def HasTaken (S : List Bool) (u : DecUnit) : Prop :=
  DecInv u ∧ (u.status = .run → ∃ N, S = bitsOf N ++ u.residueBits)

theorem hasTaken_reset : HasTaken [] DecUnit.reset := ⟨decInv_reset, fun _ => ⟨[], rfl⟩⟩

/-- In `RUN` the residue is the trailing group of the stream. -/
theorem HasTaken.trailingGroup_eq {S : List Bool} {u : DecUnit} (h : HasTaken S u)
    (hrun : u.status = .run) : trailingGroup S = u.residueBits := by
  obtain ⟨⟨-, hcnt, -⟩, hstream⟩ := h
  obtain ⟨N, rfl⟩ := hstream hrun
  refine trailingGroup_bitsOf_append N ?_
  rw [DecUnit.residueBits, msbBits_length]
  omega

theorem HasTaken.decPut {S : List Bool} {s : State} (h : HasTaken S s.dec) (b : Byte) :
    ∃ t, exec (.decPut b) s = .next t ∧ HasTaken (S ++ byteBits b) t.dec := by
  obtain ⟨hinv, hstream⟩ := h
  obtain ⟨u', toks, heff, hgoes⟩ := decPut_effect b s.dec
  refine ⟨_, hgoes s rfl, heff.decInv hinv, fun hrun' => ?_⟩
  have hrun := heff.run_before hrun'
  obtain ⟨N, hS⟩ := hstream hrun
  obtain ⟨M, hM⟩ := residueBits_of_exec_decPut hinv hrun (hgoes s rfl)
  exact ⟨N ++ M, by rw [hS, List.append_assoc, ← hM, bitsOf_append, List.append_assoc]⟩

theorem runEvents_decPut_hasTaken (B : List Byte) : ∀ {s : State} {S : List Bool},
    HasTaken S s.dec → ∃ t : State, runEvents (B.map fun b => .decCmd (0#1 ++ b)) s = .next t ∧
      HasTaken (S ++ unpack B) t.dec := by
  induction B with
  | nil =>
    intro s S h
    exact ⟨_, runEvents_nil s, by simpa using h⟩
  | cons b B ih =>
    intro s S h
    obtain ⟨s', hs', h'⟩ := h.decPut b
    obtain ⟨t, ht, htaken⟩ := ih h'
    refine ⟨t, (runEvents_decPut_cons _ hs').trans ht, ?_⟩
    rwa [unpack_cons, ← List.append_assoc]

/-- The events of a decoder transaction: one `PUT` word per byte, and the `END` word. -/
theorem decodeEvents_eq (B : List Byte) :
    decodeEvents B = (B.map fun b => .decCmd (0#1 ++ b)) ++ [.decCmd (1#1 ++ 0#8)] := by
  have hput (b : Byte) : presented (.decPut b) = some (.decCmd (0#1 ++ b)) :=
    congrArg (fun w => some (Event.decCmd w)) (BitVec.ofNat_toNat 9 (0#1 ++ b))
  induction B with
  | nil => rfl
  | cons b B ih =>
    refine (List.filterMap_cons_some (hput b)).trans ?_
    rw [List.map_cons, List.cons_append]
    exact congrArg _ ih

/-- A decoder transaction is the bytes put and then `DEC.END`. -/
theorem runEvents_decodeEvents {B : List Byte} {s t t' : State}
    (h : runEvents (B.map fun b => .decCmd (0#1 ++ b)) s = .next t)
    (hend : exec .decEnd t = .next t') :
    runEvents (decodeEvents B) s = .next (putPending [] t') := by
  have hafter : afterEvent (.decCmd (1#1 ++ 0#8)) t = .next t' := by
    rw [afterEvent, decodeDecCmd_one_append, hend]
  rw [decodeEvents_eq, runEvents_append _ h, runEvents_cons [] hafter]
  rfl

/-- `decode` reads its result off the tokens of the transaction run from reset. -/
theorem decodeBuffer_eq {B : List Byte} {t t' : State}
    (h : runEvents (B.map fun b => .decCmd (0#1 ++ b)) State.reset = .next t)
    (hend : exec .decEnd t = .next t') : decodeBuffer B = decResult t'.decOut := by
  simp [decodeBuffer, decodeFrom, runEvents_decodeEvents h hend]

/-- Tokens closed by `DONE` with a cause give the error of the cause, whatever they are. -/
theorem decResult_done_of_ne {c : CauseBits} (hc : c ≠ 0) (ts : List DecToken) :
    decResult (ts ++ [.done c]) = some (.err (causeKind c) (causeSub c)) := by
  simp only [decResult, List.getLast?_concat, resultOf, if_neg hc]

/-- A flush succeeds but for a run held that is no character. -/
theorem exists_flushEmits_or (acc : List Byte) :
    (∃ chs, FlushEmits acc chs) ∨ (acc ≠ [] ∧ utf8DecodeOne acc = none) := by
  by_cases hacc : acc = []
  · exact .inl ⟨[], .inl ⟨hacc, rfl⟩⟩
  · cases h : utf8DecodeOne acc with
    | some cp => exact .inl ⟨[.char cp], .inr ⟨cp, h, rfl⟩⟩
    | none => exact .inr ⟨hacc, rfl⟩

/-- A trailing group of eight bits, or one with a bit equal to 1: `DEC.END` reports an error of kind
`MalformedStream`, be it of the trailing group, of the last run or of a nonet before it. -/
theorem exec_decEnd_of_bad_trailing {s : State} (hinv : DecInv s.dec)
    (hbad : s.dec.status = .run → s.dec.rcnt = 8 ∨ (s.dec.rcnt ≠ 0 ∧ s.dec.res ≠ 0)) :
    ∃ t ts c, exec .decEnd s = .next t ∧ t.decOut = ts ++ [.done c] ∧ causeKind c = 2 := by
  obtain ⟨hrunNone, hrunSome, hfault⟩ := decEndChecksReportsAndResets s
  cases hst : s.dec.status with
  | fault =>
    obtain ⟨-, -, -, -, hcause, -⟩ := hinv
    refine ⟨_, _, _, hfault hst, rfl, ?_⟩
    rcases hcause hst with h | h <;> rw [h] <;> rfl
  | run =>
    rcases exists_flushEmits_or s.dec.acc with ⟨chs, hchs⟩ | ⟨hacc, hnone⟩
    · obtain ⟨height, hones, -⟩ := hrunSome chs hst hchs
      by_cases h8 : s.dec.rcnt = 8
      · exact ⟨_, _, _, height h8, rfl, rfl⟩
      · obtain ⟨h0, hres⟩ := (hbad hst).resolve_left h8
        exact ⟨_, _, _, hones h8 h0 hres, rfl, rfl⟩
    · exact ⟨_, _, _, hrunNone hst hacc hnone, rfl, rfl⟩

/-- A bit equal to 1 in the residue is seen in the registers. -/
theorem ne_zero_of_mem_residueBits {u : DecUnit} (h : true ∈ u.residueBits) :
    u.rcnt ≠ 0 ∧ u.res ≠ 0 := by
  refine ⟨fun h0 => ?_, fun h0 => ?_⟩ <;> simp [DecUnit.residueBits, h0, msbBits] at h

/-- Settles O51: in `RUN` the residue is the trailing group, which `DEC.END` judges; in `FAULT` the
cause recorded is of the same kind. -/
theorem badTrailingGroupIsRejected : Obligations.BadTrailingGroupIsRejected := by
  intro B hB
  obtain ⟨t, ht, htaken⟩ := runEvents_decPut_hasTaken B (s := State.reset) hasTaken_reset
  rw [List.nil_append] at htaken
  have ⟨hinv, _⟩ := htaken
  have hbad : t.dec.status = .run → t.dec.rcnt = 8 ∨ (t.dec.rcnt ≠ 0 ∧ t.dec.res ≠ 0) := by
    intro hrun
    have htrailing := htaken.trailingGroup_eq hrun
    rcases hB with hlen | hone
    · refine .inl (BitVec.eq_of_toNat_eq ?_)
      have hcount : t.dec.rcnt.toNat = 8 * B.length % 9 := by
        rw [← unpack_length, ← trailingGroup_length, htrailing, DecUnit.residueBits, msbBits_length]
      rw [hcount]
      simp only [BitVec.reduceToNat]
      omega
    · exact .inr (ne_zero_of_mem_residueBits (htrailing ▸ hone))
  obtain ⟨t', ts, c, hend, hout, hkind⟩ := exec_decEnd_of_bad_trailing hinv hbad
  have hc : c ≠ 0 := by
    rintro rfl
    cases hkind
  refine ⟨causeSub c, ?_⟩
  rw [decodeBuffer_eq ht hend, hout, decResult_done_of_ne hc, hkind]

end Sys2Proof.Machine
end

section
/-!
PROOFS for 42_transactions_and_laws.md. A text's nonets and a buffer's runs are tied by `splitRuns`
and `runNonets`, which undo each other. The transaction of a unit in its reset state is computed
once, as tokens: the encoder's by induction over the text, the decoder's by a conserved quantity:
the tokens emitted followed by the tokens still owed for the rest of the buffer. The closed forms
read the result off these tokens, and the laws of R176 to R183 are the closed forms put together.
-/

namespace Sys2Proof.Machine

open Sys2Proof.Safety

/-! ### Nonets and runs (R178) -/

/-- The nonets of one run: a start nonet, and continuation nonets behind it (30_encoding.md R74). -/
def runNonets (bs : List Byte) : List Nonet := bs.mapIdx mknonet

theorem charNonets_eq_runNonets (cp : CodePoint) : charNonets cp = runNonets (utf8 cp) := rfl

/-- The nonet of a byte that is not the first of its character has the flag 1. -/
theorem mknonet_succ (i : Nat) : mknonet (i + 1) = (1#1 ++ ·) := by
  funext b
  simp [mknonet, flagOfPosition]

@[simp] theorem runNonets_cons (b : Byte) (bs : List Byte) :
    runNonets (b :: bs) = (0#1 ++ b) :: bs.map (1#1 ++ ·) := by
  have hlater : bs.mapIdx (fun i => mknonet (i + 1)) = bs.map (1#1 ++ ·) :=
    List.mapIdx_eq_iff.mpr fun i => by rw [mknonet_succ, List.getElem?_map]
  rw [runNonets, List.mapIdx_cons, hlater]
  rfl

@[simp] theorem nonetFlag_start (d : Byte) : nonetFlag (0#1 ++ d) = false := getLsbD_zero_append d

@[simp] theorem nonetFlag_cont (d : Byte) : nonetFlag (1#1 ++ d) = true := getLsbD_one_append d

@[simp] theorem nonetData_append (f : BitVec 1) (d : Byte) : nonetData (f ++ d) = d :=
  BitVec.extractLsb'_append_eq_right

/-- A nonet is its flag above its data byte. -/
theorem nonet_eq_append (n : Nonet) :
    n = (if nonetFlag n then 1#1 else 0#1) ++ nonetData n := by
  obtain ⟨d, h | h⟩ := exists_append_of_lt (w := 8) n.isLt
  · obtain rfl : n = 0#1 ++ d := BitVec.eq_of_toNat_eq h
    simp
  · obtain rfl : n = 1#1 ++ d := BitVec.eq_of_toNat_eq h
    simp

/-- Continuation nonets in front join the bytes before the first run. -/
theorem splitRuns_map_cont_append (bs : List Byte) (N : List Nonet) :
    splitRuns (bs.map (1#1 ++ ·) ++ N) = (bs ++ (splitRuns N).1, (splitRuns N).2) := by
  induction bs with
  | nil => rfl
  | cons b bs ih =>
    rw [List.map_cons, List.cons_append, splitRuns_cons_of_flag _ (nonetFlag_cont b), ih,
      nonetData_append, List.cons_append]

/-- The nonets of a run in front are cut off as that run, when another run begins behind them. -/
theorem splitRuns_runNonets_append {bs : List Byte} (hbs : bs ≠ []) {N : List Nonet}
    (hN : (splitRuns N).1 = []) : splitRuns (runNonets bs ++ N) = ([], bs :: (splitRuns N).2) := by
  obtain ⟨b, bs, rfl⟩ := List.exists_cons_of_ne_nil hbs
  rw [runNonets_cons, List.cons_append, splitRuns_cons_of_not_flag _ (nonetFlag_start b),
    splitRuns_map_cont_append, nonetData_append, hN, List.append_nil]

/-- Cutting loses nothing: the nonets are those of the bytes before the first run and of the runs.
-/
theorem splitRuns_join (N : List Nonet) :
    (splitRuns N).1.map (1#1 ++ ·) ++ (splitRuns N).2.flatMap runNonets = N := by
  induction N with
  | nil => rfl
  | cons n N ih =>
    have hn := nonet_eq_append n
    cases hflag : nonetFlag n with
    | true =>
      rw [hflag, if_pos rfl] at hn
      rw [splitRuns_cons_of_flag N hflag, List.map_cons, ← hn, List.cons_append, ih]
    | false =>
      rw [hflag, if_neg Bool.false_ne_true] at hn
      rw [splitRuns_cons_of_not_flag N hflag, List.map_nil, List.nil_append, List.flatMap_cons,
        runNonets_cons, ← hn, List.cons_append, ih]

theorem utf8_ne_nil (cp : CodePoint) : utf8 cp ≠ [] := by
  obtain ⟨hmin, -⟩ := utf8_length_bounds cp
  exact List.length_pos_iff.mp hmin

theorem textNonets_cons (c : CodePoint) (T : List CodePoint) :
    textNonets (c :: T) = charNonets c ++ textNonets T := List.flatMap_cons

theorem textNonets_append (T U : List CodePoint) :
    textNonets (T ++ U) = textNonets T ++ textNonets U := List.flatMap_append

theorem textNonets_length_eq_sum (T : List CodePoint) :
    (textNonets T).length = (T.map utf8Len).sum := by
  rw [textNonets_length, List.length_flatMap]
  rfl

/-- Cutting the nonets of a text at its start nonets gives the characters' UTF-8 forms. -/
theorem splitRuns_textNonets (T : List CodePoint) :
    splitRuns (textNonets T) = ([], T.map utf8) := by
  induction T with
  | nil => rfl
  | cons c T ih =>
    rw [textNonets_cons, charNonets_eq_runNonets,
      splitRuns_runNonets_append (utf8_ne_nil c) (by rw [ih]), ih, List.map_cons]

/-- The flags of a run: 0 at its first nonet and 1 at the others. -/
theorem map_nonetFlag_runNonets {bs : List Byte} (hbs : bs ≠ []) :
    (runNonets bs).map nonetFlag = false :: List.replicate (bs.length - 1) true := by
  obtain ⟨b, bs, rfl⟩ := List.exists_cons_of_ne_nil hbs
  simp [List.map_eq_replicate_iff]

/-- Settles O11: a character's nonets are those of a run, and the cut undoes the run's making. -/
theorem flagsMarkTheCharacters : Obligations.FlagsMarkTheCharacters := by
  intro T
  refine ⟨?_, textNonets_length_eq_sum T, splitRuns_textNonets T⟩
  rw [textNonets, List.map_flatMap]
  congr 1
  funext c
  exact map_nonetFlag_runNonets (utf8_ne_nil c)

/-! ### Every sequence of events runs (R175) -/

/-- Settles O35: each event is taken and answers a next state. -/
theorem everyEventSequenceRuns : Obligations.EveryEventSequenceRuns := by
  intro evs
  induction evs with
  | nil => exact fun s => ⟨_, runEvents_nil s, rfl⟩
  | cons e evs ih =>
    intro s
    obtain ⟨s', hs'⟩ := afterEvent_next e s
    rw [runEvents_cons evs hs']
    exact ih s'

/-! ### The tokens of an encoder transaction -/

/-- Characters put to an encoder in `FAULT` change nothing (40_encoder.md R111). -/
theorem runEvents_encPut_of_fault (T : List CodePoint) : ∀ {s : State}, s.enc.status = .fault →
    runEvents (T.map fun c => .encCmd (0#1 ++ c)) s = .next (putPending [] s) := by
  induction T with
  | nil => exact fun _ => rfl
  | cons c T ih =>
    intro s hfault
    rw [List.map_cons, runEvents_encPut_cons _ (exec_encPut_of_fault c hfault), ih hfault]

/-- A text with an element that is no scalar value, put in `RUN`: some bytes come out, and the first
such element leaves the unit in `FAULT` with `NOT_SCALAR` recorded. -/
theorem runEvents_encPut_of_not_scalar (T : List CodePoint) : ∀ {s : State},
    s.enc.status = .run → EncInv s.enc → (∃ c ∈ T, isScalar c = false) →
    ∃ (u : EncUnit) (bs : List Byte),
      runEvents (T.map fun c => .encCmd (0#1 ++ c)) s =
        .next (putPending [] (encAfter u (bs.map .byte) s)) ∧
      u.status = .fault ∧ u.cause = ErrorCause.notScalar.code := by
  induction T with
  | nil => simp
  | cons c T ih =>
    intro s hrun hinv hbad
    cases hc : isScalar c with
    | false =>
      refine ⟨{ s.enc with status := .fault, cause := ErrorCause.notScalar.code }, [], ?_, rfl, rfl⟩
      rw [List.map_cons, runEvents_encPut_cons _ (encPut_goes_of_not_scalar hrun hc s rfl),
        runEvents_encPut_of_fault T rfl, List.map_nil]
    | true =>
      have hbad' : ∃ c ∈ T, isScalar c = false := by simpa [hc] using hbad
      obtain ⟨bs, p, hgoes, -, hinv'⟩ := encPut_stream hinv hrun hc
      obtain ⟨u, bs', hrest, hfault, hcause⟩ :=
        ih (s := encAfter (s.enc.withPacked p) (bs.map .byte) s) hrun hinv' hbad'
      refine ⟨u, bs ++ bs', ?_, hfault, hcause⟩
      rw [List.map_cons, runEvents_encPut_cons _ (hgoes s rfl), hrest, encAfter_encAfter,
        List.map_append]

/-- The whole transaction over a text with an element that is no scalar value. -/
theorem runEvents_encodeEvents_of_not_scalar {T : List CodePoint} {s : State}
    (hs : s.enc = EncUnit.reset) (hbad : ∃ c ∈ T, isScalar c = false) :
    ∃ bs : List Byte, runEvents (encodeEvents T) s = .next (putPending []
      (encAfter EncUnit.reset (bs.map .byte ++ [.done ErrorCause.notScalar.code]) s)) := by
  obtain ⟨u, bs, hputs, hfault, hcause⟩ :=
    runEvents_encPut_of_not_scalar T (s := s) (by rw [hs]; rfl) (hs ▸ encInv_reset) hbad
  refine ⟨bs, ?_⟩
  rw [runEvents_encodeEvents hputs, ← hcause, ← encEndTokens_of_fault hfault,
    ← encAfter_encAfter u]
  rfl

/-- Bytes closed by a `DONE` are decided by its cause. -/
theorem encResult_bytes_done_cause (bs : List Byte) (c : CauseBits) :
    encResult (bs.map .byte ++ [.done c]) = some (resultOf c bs) := by
  by_cases hc : c = 0
  · subst hc
    exact encResult_bytes_done bs
  · rw [encResult_done_of_ne hc, resultOf, if_neg hc]

/-- `encode` reads its result off the tokens of the transaction. -/
theorem encodeFrom_of_runEvents {T : List CodePoint} {s : State} {bs : List Byte} {c : CauseBits}
    (h : runEvents (encodeEvents T) s =
      .next (putPending [] (encAfter EncUnit.reset (bs.map .byte ++ [.done c]) s))) :
    encodeFrom s T = some (resultOf c bs) := by
  simp only [encodeFrom, h, putPending_encOut, encAfter_encOut, List.drop_left,
    encResult_bytes_done_cause]

/-- Settles O43: either transaction's tokens decide its result. -/
theorem encodeClosedForm : Obligations.EncodeClosedForm := by
  refine fun T s hs => ⟨fun hT => ?_, fun hbad => ?_⟩
  · exact encodeFrom_of_runEvents (runEvents_encodeEvents_of_scalar hs hT)
  · obtain ⟨bs, hrun⟩ := runEvents_encodeEvents_of_not_scalar hs hbad
    exact encodeFrom_of_runEvents hrun

theorem encodeText_of_scalar {T : List CodePoint} (hT : ∀ c ∈ T, isScalar c = true) :
    encodeText T = some (.ok (pack (bitsOf (textNonets T)))) := by
  obtain ⟨hok, -⟩ := encodeClosedForm T State.reset rfl
  exact hok hT

/-- The texts that have an encoding, and what it is. -/
theorem encodeText_eq_ok_iff {T : List CodePoint} {B : List Byte} : encodeText T = some (.ok B) ↔
    (∀ c ∈ T, isScalar c = true) ∧ pack (bitsOf (textNonets T)) = B := by
  constructor
  · intro h
    have hT := forall_isScalar_of_encodeText h
    rw [encodeText_of_scalar hT] at h
    exact ⟨hT, Result.ok.inj (Option.some.inj h)⟩
  · rintro ⟨hT, rfl⟩
    exact encodeText_of_scalar hT

/-! ### The tokens of a decoder transaction (R174) -/

/-- The cause that the trailing group gives `DONE` (41_decoder.md R148, R149). -/
def trailingCause (t : List Bool) : CauseBits :=
  if t.length = 8 then ErrorCause.badLength.code
  else if true ∈ t then ErrorCause.badPad.code
  else 0

/-- The tokens for whole runs and a trailing group: a character for each run up to the first that is
none, and `DONE` with `BAD_RUN` for that one, or with the trailing group's cause where every run is a
character (41_decoder.md R152). -/
def runTokens (t : List Bool) : List (List Byte) → List DecToken
  | [] => [.done (trailingCause t)]
  | bs :: runs =>
    match utf8DecodeOne bs with
    | some cp => .char cp :: runTokens t runs
    | none => [.done ErrorCause.badRun.code]

theorem runTokens_cons_of_some {t : List Bool} {bs : List Byte} {cp : CodePoint}
    (h : utf8DecodeOne bs = some cp) (runs : List (List Byte)) :
    runTokens t (bs :: runs) = .char cp :: runTokens t runs := by
  simp [runTokens, h]

theorem runTokens_cons_of_none {t : List Bool} {bs : List Byte} (h : utf8DecodeOne bs = none)
    (runs : List (List Byte)) : runTokens t (bs :: runs) = [.done ErrorCause.badRun.code] := by
  simp [runTokens, h]

/-- The tokens a decoder will emit until the end of its transaction, if the nonets `N` are still to
be executed and `t` is to trail: in `FAULT` the cause recorded; in `RUN` those of the runs that `N`
is cut into, the run held extended by the bytes before the first of them. -/
def DecUnit.tokensOwed (u : DecUnit) (N : List Nonet) (t : List Bool) : List DecToken :=
  match u.status with
  | .fault => [.done u.cause]
  | .run =>
    if u.acc ≠ [] then runTokens t ((u.acc ++ (splitRuns N).1) :: (splitRuns N).2)
    else if (splitRuns N).1 = [] then runTokens t (splitRuns N).2
    else [.done ErrorCause.leadingCont.code]

theorem tokensOwed_of_fault {u : DecUnit} (h : u.status = .fault) (N : List Nonet)
    (t : List Bool) : u.tokensOwed N t = [.done u.cause] := by
  simp [DecUnit.tokensOwed, h]

theorem tokensOwed_of_held {u : DecUnit} (hrun : u.status = .run) (hacc : u.acc ≠ [])
    (N : List Nonet) (t : List Bool) :
    u.tokensOwed N t = runTokens t ((u.acc ++ (splitRuns N).1) :: (splitRuns N).2) := by
  simp [DecUnit.tokensOwed, hrun, hacc]

theorem tokensOwed_of_lead_nil {u : DecUnit} (hrun : u.status = .run) (hacc : u.acc = [])
    {N : List Nonet} (hN : (splitRuns N).1 = []) (t : List Bool) :
    u.tokensOwed N t = runTokens t (splitRuns N).2 := by
  simp [DecUnit.tokensOwed, hrun, hacc, hN]

theorem tokensOwed_of_lead_ne_nil {u : DecUnit} (hrun : u.status = .run) (hacc : u.acc = [])
    {N : List Nonet} (hN : (splitRuns N).1 ≠ []) (t : List Bool) :
    u.tokensOwed N t = [.done ErrorCause.leadingCont.code] := by
  simp [DecUnit.tokensOwed, hrun, hacc, hN]

/-- No character has more than four bytes (41_decoder.md R137). -/
theorem utf8DecodeOne_of_length {bs : List Byte} (h : 4 < bs.length) : utf8DecodeOne bs = none := by
  refine Option.eq_none_iff_forall_ne_some.mpr fun cp hcp => ?_
  obtain ⟨-, rfl⟩ := utf8DecodeOne_eq_some_iff.mp hcp
  obtain ⟨-, hmax⟩ := utf8_length_bounds cp
  omega

/-- A start nonet: the tokens emitted and owed stay the same. -/
theorem tokensOwed_nonetStart {n : Nonet} (hflag : nonetFlag n = false) {s s' : State}
    (hrun : s.dec.status = .run) (h : exec (.nonetStart (nonetData n)) s = .next s')
    (N : List Nonet) (t : List Bool) :
    s'.decOut ++ s'.dec.tokensOwed N t = s.decOut ++ s.dec.tokensOwed (n :: N) t := by
  have hsplit := splitRuns_cons_of_not_flag N hflag
  have hbegun := tokensOwed_of_held (u := { s.dec with acc := [nonetData n] }) hrun (by simp) N t
  by_cases hacc : s.dec.acc = []
  · cases (exec_nonetStart_of_nil _ hacc).symm.trans h
    rw [tokensOwed_of_lead_nil hrun hacc (by rw [hsplit]), hsplit]
    exact congrArg (s.decOut ++ ·) hbegun
  · rw [tokensOwed_of_held hrun hacc, hsplit, List.append_nil]
    cases hcp : utf8DecodeOne s.dec.acc with
    | some cp =>
      cases (exec_nonetStart_of_some _ hcp).symm.trans h
      rw [runTokens_cons_of_some hcp]
      exact (congrArg (s.decOut ++ [.char cp] ++ ·) hbegun).trans (List.append_assoc _ _ _)
    | none =>
      cases (exec_nonetStart_of_none _ hacc hcp).symm.trans h
      rw [tokensOwed_of_fault rfl, runTokens_cons_of_none hcp]
      rfl

/-- A continuation nonet: the tokens emitted and owed stay the same. -/
theorem tokensOwed_nonetCont {n : Nonet} (hflag : nonetFlag n = true) {s s' : State}
    (hrun : s.dec.status = .run) (hlen : s.dec.alen ≤ 4)
    (h : exec (.nonetCont (nonetData n)) s = .next s') (N : List Nonet) (t : List Bool) :
    s'.decOut ++ s'.dec.tokensOwed N t = s.decOut ++ s.dec.tokensOwed (n :: N) t := by
  have hsplit := splitRuns_cons_of_flag N hflag
  by_cases hacc : s.dec.acc = []
  · have h0 : s.dec.alen = 0 := List.length_eq_zero_iff.mpr hacc
    cases (exec_nonetCont_of_empty _ h0).symm.trans h
    rw [tokensOwed_of_fault rfl, tokensOwed_of_lead_ne_nil hrun hacc (by simp [hsplit])]
    rfl
  · rw [tokensOwed_of_held hrun hacc, hsplit]
    by_cases h4 : s.dec.alen = 4
    · cases (exec_nonetCont_of_full _ h4).symm.trans h
      have hlong : 4 < (s.dec.acc ++ nonetData n :: (splitRuns N).1).length := by
        rw [List.length_append, List.length_cons, ← DecUnit.alen_eq]
        omega
      rw [tokensOwed_of_fault rfl, runTokens_cons_of_none (utf8DecodeOne_of_length hlong)]
      rfl
    · have hpos : 1 ≤ s.dec.alen := List.length_pos_iff.mpr hacc
      cases (exec_nonetCont_of_held _ hpos (by omega)).symm.trans h
      have hextended := tokensOwed_of_held (u := { s.dec with acc := s.dec.acc ++ [nonetData n] })
        hrun (by simp) N t
      rw [List.append_cons s.dec.acc (nonetData n) (splitRuns N).1]
      exact congrArg (s.decOut ++ ·) hextended

/-- Executing a nonet in `RUN`: what it emits is no longer owed, and nothing else changes. -/
theorem tokensOwed_decodeNonet {n : Nonet} {s s' : State} (hrun : s.dec.status = .run)
    (hlen : s.dec.alen ≤ 4) (h : exec (decodeNonet n) s = .next s') (N : List Nonet)
    (t : List Bool) :
    s'.decOut ++ s'.dec.tokensOwed N t = s.decOut ++ s.dec.tokensOwed (n :: N) t := by
  cases hflag : nonetFlag n with
  | false =>
    rw [decodeNonet_of_not_flag hflag] at h
    exact tokensOwed_nonetStart hflag hrun h N t
  | true =>
    rw [decodeNonet_of_flag hflag] at h
    exact tokensOwed_nonetCont hflag hrun hlen h N t

theorem residueBits_of_exec_decodeNonet {n : Nonet} {s s' : State}
    (h : exec (decodeNonet n) s = .next s') : s'.dec.residueBits = s.dec.residueBits := by
  obtain ⟨u', toks, heff, hgoes⟩ := decodeNonet_effect n s.dec
  cases (hgoes s rfl).symm.trans h
  exact heff.residueBits_eq

/-- The tokens a decoder will emit for the bit stream `S` that is still to be put, and `END`. -/
def DecUnit.tokensFor (u : DecUnit) (S : List Bool) : List DecToken :=
  u.tokensOwed (completeNonets (u.residueBits ++ S)) (trailingGroup (u.residueBits ++ S))

/-- A non-empty residue and a byte are a nonet and a residue one bit shorter. -/
theorem exists_nonet_of_residue {u : DecUnit} (hcnt : u.rcnt.toNat ≤ 8) (h0 : u.rcnt ≠ 0)
    (b : Byte) : ∃ (n : Nonet) (r : BitVec 8) (c : BitVec 4), r.toNat < 2 ^ c.toNat ∧
      u.rcnt.toNat = c.toNat + 1 ∧
      u.residueBits ++ byteBits b = nonetBits n ++ msbBits c.toNat r.toNat := by
  have hpos : u.rcnt.toNat ≠ 0 := fun h => h0 (BitVec.eq_of_toNat_eq h)
  obtain ⟨c, hc⟩ := Nat.exists_eq_succ_of_ne_zero hpos
  have hstream := unpackStep_stream u.res.toNat u.rcnt.toNat b
  rw [hc, unpackStep_succ, Option.elim_some, ← hc] at hstream
  have hr : (u.res.toNat * 256 + b.toNat) % 2 ^ c < 2 ^ c := Nat.mod_lt _ (Nat.two_pow_pos c)
  have hr8 : (u.res.toNat * 256 + b.toNat) % 2 ^ c < 2 ^ 8 :=
    hr.trans_le (Nat.pow_le_pow_right (by decide) (by omega))
  have hc4 : (BitVec.ofNat 4 c).toNat = c := by
    rw [BitVec.toNat_ofNat, Nat.mod_eq_of_lt (by omega)]
  refine ⟨BitVec.ofNat 9 ((u.res.toNat * 256 + b.toNat) / 2 ^ c),
    BitVec.ofNat 8 ((u.res.toNat * 256 + b.toNat) % 2 ^ c), BitVec.ofNat 4 c, ?_, ?_, ?_⟩
  · rwa [hc4, BitVec.toNat_ofNat, Nat.mod_eq_of_lt hr8]
  · rw [hc4, hc]
  · rw [hc4, BitVec.toNat_ofNat, Nat.mod_eq_of_lt hr8]
    exact hstream.symm

/-- A byte put: what it emits is no longer owed, and nothing else changes. -/
theorem tokensFor_decPut {b : Byte} {s s' : State} (hinv : DecInv s.dec)
    (h : exec (.decPut b) s = .next s') (S : List Bool) :
    s'.decOut ++ s'.dec.tokensFor S = s.decOut ++ s.dec.tokensFor (byteBits b ++ S) := by
  obtain ⟨-, hcnt, hlen, -⟩ := hinv
  cases hst : s.dec.status with
  | fault =>
    cases (exec_decPut_of_fault b hst).symm.trans h
    simp only [DecUnit.tokensFor, tokensOwed_of_fault hst]
  | run =>
    by_cases h0 : s.dec.rcnt = 0
    · cases (exec_decPut_of_rcnt_zero b hst h0).symm.trans h
      have hempty : s.dec.residueBits = [] := by rw [DecUnit.residueBits, h0]; rfl
      rw [DecUnit.tokensFor, DecUnit.tokensFor, hempty]
      rfl
    · obtain ⟨n, r, c, hr, hc, hcut⟩ := exists_nonet_of_residue hcnt h0 b
      rw [exec_decPut_of_stream hst hr hc hcut] at h
      have hres := residueBits_of_exec_decodeNonet h
      have hstream : s.dec.residueBits ++ (byteBits b ++ S) =
          nonetBits n ++ (s'.dec.residueBits ++ S) := by
        rw [hres, ← List.append_assoc, hcut, List.append_assoc]
        rfl
      rw [DecUnit.tokensFor, DecUnit.tokensFor, hstream, completeNonets_nonetBits_append,
        trailingGroup_nonetBits_append]
      exact tokensOwed_decodeNonet (s := { s with dec := { s.dec with res := r, rcnt := c } })
        hst hlen h _ _

/-- A residue without a bit equal to 1 is empty or zero. -/
theorem residue_zero_of_not_mem {u : DecUnit} (hres : u.res.toNat < 2 ^ u.rcnt.toNat)
    (h : true ∉ u.residueBits) : u.rcnt = 0 ∨ u.res = 0 := by
  have hzeros : u.residueBits = msbBits u.rcnt.toNat 0 := by
    rw [msbBits_zero_right, List.eq_replicate_iff]
    exact ⟨msbBits_length _ _, fun b hb => Bool.eq_false_iff.mpr fun hb1 => h (hb1 ▸ hb)⟩
  exact .inr (BitVec.eq_of_toNat_eq (eq_of_msbBits_eq hres (Nat.two_pow_pos _) hzeros))

theorem rcnt_eq_eight_iff (u : DecUnit) : u.rcnt = 8 ↔ u.residueBits.length = 8 := by
  rw [DecUnit.residueBits, msbBits_length, ← BitVec.toNat_inj]
  rfl

/-- `DEC.END` once the run held is flushed reports the cause of the trailing group. -/
theorem exec_decEnd_of_flushEmits {s : State} {chs : List DecToken} (hinv : DecInv s.dec)
    (hrun : s.dec.status = .run) (hchs : FlushEmits s.dec.acc chs) :
    exec .decEnd s = .next
      (decAfter DecUnit.reset (chs ++ [.done (trailingCause s.dec.residueBits)]) s) := by
  have ⟨hres, _⟩ := hinv
  obtain ⟨-, hpaths, -⟩ := decEndChecksReportsAndResets s
  obtain ⟨height, hones, hclean⟩ := hpaths chs hrun hchs
  rw [decAfter, ← List.append_assoc]
  by_cases h8 : s.dec.rcnt = 8
  · rw [trailingCause, if_pos ((rcnt_eq_eight_iff _).mp h8)]
    exact height h8
  · by_cases hone : true ∈ s.dec.residueBits
    · obtain ⟨h0, hne⟩ := ne_zero_of_mem_residueBits hone
      rw [trailingCause, if_neg (h8 ∘ (rcnt_eq_eight_iff _).mpr), if_pos hone]
      exact hones h8 h0 hne
    · obtain ⟨hend, hcause⟩ := hclean h8 (residue_zero_of_not_mem hres hone)
      rw [trailingCause, if_neg (h8 ∘ (rcnt_eq_eight_iff _).mpr), if_neg hone, ← hcause hinv]
      exact hend

/-- `DEC.END` emits what is owed when nothing more is put. -/
theorem exec_decEnd_tokensFor {s : State} (hinv : DecInv s.dec) :
    exec .decEnd s = .next (decAfter DecUnit.reset (s.dec.tokensFor []) s) := by
  have ⟨_, hcnt, _⟩ := hinv
  have hshort : s.dec.residueBits.length < 9 := by
    rw [DecUnit.residueBits, msbBits_length]
    omega
  have hnonets : completeNonets s.dec.residueBits = [] := completeNonets_bitsOf_append [] hshort
  have htrail : trailingGroup s.dec.residueBits = s.dec.residueBits :=
    trailingGroup_bitsOf_append [] hshort
  rw [DecUnit.tokensFor, List.append_nil, hnonets, htrail]
  cases hst : s.dec.status with
  | fault =>
    rw [tokensOwed_of_fault hst]
    exact decEndInFaultReportsTheFirstError s hst
  | run =>
    by_cases hacc : s.dec.acc = []
    · rw [tokensOwed_of_lead_nil hst hacc rfl]
      exact exec_decEnd_of_flushEmits hinv hst (.inl ⟨hacc, rfl⟩)
    · rw [tokensOwed_of_held hst hacc]
      simp only [splitRuns, List.append_nil]
      cases hcp : utf8DecodeOne s.dec.acc with
      | some cp =>
        rw [runTokens_cons_of_some hcp]
        exact exec_decEnd_of_flushEmits hinv hst (.inr ⟨cp, hcp, rfl⟩)
      | none =>
        rw [runTokens_cons_of_none hcp]
        obtain ⟨hbad, -⟩ := decEndChecksReportsAndResets s
        exact hbad hst hacc hcp

theorem decodeEvents_cons (b : Byte) (B : List Byte) :
    decodeEvents (b :: B) = .decCmd (0#1 ++ b) :: decodeEvents B := by
  rw [decodeEvents_eq, decodeEvents_eq, List.map_cons, List.cons_append]

/-- The rest of a decoder transaction, from any state that keeps the invariant: every register ends
in its reset state, and the tokens emitted are the tokens owed. -/
theorem runEvents_decodeEvents_tokensFor (B : List Byte) : ∀ {s : State}, DecInv s.dec →
    ∃ t, runEvents (decodeEvents B) s = .next t ∧ t.dec = DecUnit.reset ∧
      t.decOut = s.decOut ++ s.dec.tokensFor (unpack B) := by
  induction B with
  | nil =>
    intro s hinv
    exact ⟨_, runEvents_decodeEvents (runEvents_nil s) (exec_decEnd_tokensFor hinv), rfl, rfl⟩
  | cons b B ih =>
    intro s hinv
    obtain ⟨u', toks, heff, hgoes⟩ := decPut_effect b s.dec
    obtain ⟨t, ht, hreset, hout⟩ := ih (s := decAfter u' toks s) (heff.decInv hinv)
    refine ⟨t, ?_, hreset, ?_⟩
    · rw [decodeEvents_cons, runEvents_decPut_cons _ (hgoes s rfl), ht]
    · rw [hout, tokensFor_decPut hinv (hgoes s rfl), unpack_cons]

/-- Characters closed by a `DONE` are decided by its cause. -/
theorem decResult_chars_done (cps : List CodePoint) (c : CauseBits) :
    decResult (cps.map .char ++ [.done c]) = some (resultOf c cps) := by
  have hchars : (cps.map DecToken.char).filterMap DecToken.char? = cps := by
    rw [List.filterMap_map]
    exact List.filterMap_some
  simp [decResult, hchars, List.filterMap_cons, DecToken.char?]

/-- `decode` reads its result off the tokens of the transaction. -/
theorem decodeFrom_of_reset {s : State} (hs : s.dec = DecUnit.reset) (B : List Byte) :
    decodeFrom s B = decResult (DecUnit.reset.tokensFor (unpack B)) := by
  obtain ⟨t, ht, -, hout⟩ := runEvents_decodeEvents_tokensFor B (s := s) (hs ▸ decInv_reset)
  simp only [decodeFrom, ht, hout, List.drop_left, hs]

/-- From the reset state the residue is empty: the stream is cut as it stands. -/
theorem tokensFor_reset (S : List Bool) : DecUnit.reset.tokensFor S =
    DecUnit.reset.tokensOwed (completeNonets S) (trailingGroup S) := rfl

/-- Runs that are all characters give these and the cause of the trailing group. -/
theorem runTokens_of_forall_some {t : List Bool} {cps : List CodePoint} :
    ∀ {runs : List (List Byte)}, runs.map utf8DecodeOne = cps.map some →
      runTokens t runs = cps.map .char ++ [.done (trailingCause t)] := by
  induction cps with
  | nil =>
    intro runs h
    rw [List.map_eq_nil_iff.mp h]
    rfl
  | cons cp cps ih =>
    intro runs h
    obtain ⟨bs, runs, rfl, hbs, hruns⟩ := List.map_eq_cons_iff.mp h
    rw [runTokens_cons_of_some hbs, ih hruns, List.map_cons, List.cons_append]

/-- A run that is no character ends the tokens with `BAD_RUN`. -/
theorem runTokens_of_exists_none {t : List Bool} {runs : List (List Byte)}
    (h : ∃ bs ∈ runs, utf8DecodeOne bs = none) :
    ∃ cps : List CodePoint,
      runTokens t runs = cps.map .char ++ [.done ErrorCause.badRun.code] := by
  induction runs with
  | nil => simp at h
  | cons bs runs ih =>
    cases hbs : utf8DecodeOne bs with
    | none => exact ⟨[], runTokens_cons_of_none hbs runs⟩
    | some cp =>
      obtain ⟨cps, hcps⟩ := ih (by simpa [hbs] using h)
      exact ⟨cp :: cps, by rw [runTokens_cons_of_some hbs, hcps, List.map_cons, List.cons_append]⟩

/-- Every run is a character, or some run is none. -/
theorem forall_some_or_exists_none (runs : List (List Byte)) :
    (∃ cps : List CodePoint, runs.map utf8DecodeOne = cps.map some) ∨
      ∃ bs ∈ runs, utf8DecodeOne bs = none := by
  induction runs with
  | nil => exact .inl ⟨[], rfl⟩
  | cons bs runs ih =>
    cases hbs : utf8DecodeOne bs with
    | none => exact .inr ⟨bs, List.mem_cons_self, hbs⟩
    | some cp =>
      rcases ih with ⟨cps, hcps⟩ | ⟨bs', hmem, hnone⟩
      · exact .inl ⟨cp :: cps, by rw [List.map_cons, List.map_cons, hbs, hcps]⟩
      · exact .inr ⟨bs', List.mem_cons_of_mem bs hmem, hnone⟩

/-- Settles O44: the tokens of each line end in the `DONE` of that line. -/
theorem decodeClosedForm : Obligations.DecodeClosedForm := by
  intro B s hs lead runs t
  rw [decodeFrom_of_reset hs, tokensFor_reset]
  refine ⟨fun hlead => ?_, fun hlead hnone => ?_, fun cps hlead hcps => ?_⟩
  · rw [tokensOwed_of_lead_ne_nil rfl rfl hlead]
    exact decResult_chars_done [] _
  · obtain ⟨cps, htokens⟩ := runTokens_of_exists_none (t := t) hnone
    rw [tokensOwed_of_lead_nil rfl rfl hlead, htokens, decResult_chars_done]
    rfl
  · rw [tokensOwed_of_lead_nil rfl rfl hlead, runTokens_of_forall_some hcps, decResult_chars_done]
    refine ⟨fun h8 => ?_, fun h8 hone => ?_, fun h8 hzero => ?_⟩
    · rw [trailingCause, if_pos h8]
      rfl
    · rw [trailingCause, if_neg h8, if_pos hone]
      rfl
    · rw [trailingCause, if_neg h8, if_neg hzero]
      rfl

/-! ### The laws of encoding and decoding (R176 to R183) -/

/-- A stream is its complete nonets and its trailing group. -/
theorem bitsOf_completeNonets_append (S : List Bool) :
    bitsOf (completeNonets S) ++ trailingGroup S = S := by
  by_cases hshort : S.length < 9
  · have hnonets : completeNonets S = [] := completeNonets_bitsOf_append [] hshort
    have htrail : trailingGroup S = S := trailingGroup_bitsOf_append [] hshort
    rw [hnonets, htrail, bitsOf_nil, List.nil_append]
  · have hfirst : (S.take 9).length = 9 := by
      rw [List.length_take]
      omega
    have hcut : S = nonetBits (BitVec.ofNat 9 (msbValue (S.take 9))) ++ S.drop 9 := by
      conv_lhs => rw [← List.take_append_drop 9 S, ← msbBits_msbValue (S.take 9), hfirst]
      rw [nonetBits_ofNat]
    have ih := bitsOf_completeNonets_append (S.drop 9)
    conv_lhs => rw [hcut]
    rw [completeNonets_nonetBits_append, trailingGroup_nonetBits_append, bitsOf_cons,
      List.append_assoc, ih, ← hcut]
termination_by S.length
decreasing_by
  rw [List.length_drop]
  omega

theorem trailingGroup_length_le (S : List Bool) : (trailingGroup S).length ≤ 8 := by
  rw [trailingGroup_length]
  omega

@[simp] theorem pack_unpack (B : List Byte) : pack (unpack B) = B := by
  have h := pack_unpack_append B []
  rwa [List.append_nil, pack_nil, List.append_nil] at h

theorem unpack_injective : Function.Injective unpack :=
  Function.LeftInverse.injective pack_unpack

/-- The stream of the buffer of `n` nonets: the nonets, and at most seven zeros. -/
theorem exists_unpack_pack_bitsOf (N : List Nonet) : ∃ k ≤ 7,
    unpack (pack (bitsOf N)) = bitsOf N ++ List.replicate k false := by
  obtain ⟨-, hunpack, hpad⟩ := unpackOfPackAddsOnlyPadding (bitsOf N)
  exact ⟨_, hpad, hunpack⟩

/-- A buffer whose stream is nonets and at most seven zeros is the buffer of these nonets. -/
theorem pack_bitsOf_of_unpack {N : List Nonet} {B : List Byte} {k : Nat} (hk : k ≤ 7)
    (h : unpack B = bitsOf N ++ List.replicate k false) : pack (bitsOf N) = B := by
  have hlen : 8 * B.length = 9 * N.length + k := by
    rw [← unpack_length, h, List.length_append, bitsOf_length, List.length_replicate]
  obtain ⟨-, hunpack, -⟩ := unpackOfPackAddsOnlyPadding (bitsOf N)
  have hpad : 8 * (((bitsOf N).length + 7) / 8) - (bitsOf N).length = k := by
    rw [bitsOf_length]
    omega
  rw [hpad] at hunpack
  exact unpack_injective (hunpack.trans h.symm)

/-- Runs are the characters of a text exactly when they are their UTF-8 forms. -/
theorem map_utf8DecodeOne_eq_iff {T : List CodePoint} : ∀ {runs : List (List Byte)},
    runs.map utf8DecodeOne = T.map some ↔ (∀ c ∈ T, isScalar c = true) ∧ runs = T.map utf8 := by
  induction T with
  | nil => simp
  | cons c T ih =>
    intro runs
    rw [List.map_cons, List.map_cons, List.forall_mem_cons, List.map_eq_cons_iff]
    constructor
    · rintro ⟨bs, runs, rfl, hbs, hruns⟩
      obtain ⟨hc, rfl⟩ := utf8DecodeOne_eq_some_iff.mp hbs
      obtain ⟨hT, rfl⟩ := ih.mp hruns
      exact ⟨⟨hc, hT⟩, rfl⟩
    · rintro ⟨⟨hc, hT⟩, rfl⟩
      exact ⟨_, _, rfl, utf8DecodeOne_eq_some_iff.mpr ⟨hc, rfl⟩, ih.mpr ⟨hT, rfl⟩⟩

/-- What `decode` accepts, and as what: complete nonets that are a text's, and at most seven zeros
behind them. -/
theorem decodeFrom_eq_ok_iff {B : List Byte} {T : List CodePoint} {s : State}
    (hs : s.dec = DecUnit.reset) : decodeFrom s B = some (.ok T) ↔
      (∀ c ∈ T, isScalar c = true) ∧ completeNonets (unpack B) = textNonets T ∧
        (trailingGroup (unpack B)).length ≠ 8 ∧ true ∉ trailingGroup (unpack B) := by
  obtain ⟨hlead, hnone, hsome⟩ := decodeClosedForm B s hs
  constructor
  · intro h
    by_cases hl : (splitRuns (completeNonets (unpack B))).1 = []
    case neg => simp [hlead hl] at h
    rcases forall_some_or_exists_none (splitRuns (completeNonets (unpack B))).2 with
      ⟨cps, hcps⟩ | hbad
    case inr => simp [hnone hl hbad] at h
    obtain ⟨hlen, hpad, hok⟩ := hsome cps hl hcps
    by_cases h8 : (trailingGroup (unpack B)).length = 8
    case pos => simp [hlen h8] at h
    by_cases hone : true ∈ trailingGroup (unpack B)
    case pos => simp [hpad h8 hone] at h
    obtain rfl : cps = T := Result.ok.inj (Option.some.inj ((hok h8 hone).symm.trans h))
    obtain ⟨hT, hruns⟩ := map_utf8DecodeOne_eq_iff.mp hcps
    refine ⟨hT, ?_, h8, hone⟩
    rw [← splitRuns_join (completeNonets (unpack B)), hl, hruns, List.flatMap_map]
    rfl
  · rintro ⟨hT, hN, h8, hone⟩
    rw [hN, splitRuns_textNonets] at hsome
    obtain ⟨-, -, hok⟩ := hsome T rfl (map_utf8DecodeOne_eq_iff.mpr ⟨hT, rfl⟩)
    exact hok h8 hone

/-- What `decode` accepts is what `encode` produces (42_transactions_and_laws.md R179). -/
theorem decodeFrom_eq_ok_iff_pack {B : List Byte} {T : List CodePoint} {s : State}
    (hs : s.dec = DecUnit.reset) : decodeFrom s B = some (.ok T) ↔
      (∀ c ∈ T, isScalar c = true) ∧ pack (bitsOf (textNonets T)) = B := by
  rw [decodeFrom_eq_ok_iff hs]
  refine and_congr_right fun _ => ⟨?_, ?_⟩
  · rintro ⟨hN, h8, hzero⟩
    have hle := trailingGroup_length_le (unpack B)
    have hzeros : trailingGroup (unpack B) =
        List.replicate (trailingGroup (unpack B)).length false :=
      List.eq_replicate_iff.mpr
        ⟨rfl, fun b hb => Bool.eq_false_iff.mpr fun hb1 => hzero (hb1 ▸ hb)⟩
    refine pack_bitsOf_of_unpack (k := (trailingGroup (unpack B)).length) (by omega) ?_
    rw [← hzeros, ← hN, bitsOf_completeNonets_append]
  · rintro rfl
    obtain ⟨k, hk, hunpack⟩ := exists_unpack_pack_bitsOf (textNonets T)
    have hshort : (List.replicate k false).length < 9 := by
      rw [List.length_replicate]
      omega
    rw [hunpack, completeNonets_bitsOf_append _ hshort, trailingGroup_bitsOf_append _ hshort]
    exact ⟨rfl, by rw [List.length_replicate]; omega, by simp⟩

/-- Settles O45: the buffer is the packed text, which `decode` accepts as the text. -/
theorem decodeOfEncodeIsTheText : Obligations.DecodeOfEncodeIsTheText := by
  intro T s s' hs hs' hT
  obtain ⟨hok, -⟩ := encodeClosedForm T s hs
  exact ⟨_, hok hT, (decodeFrom_eq_ok_iff_pack hs').mpr ⟨hT, rfl⟩⟩

/-- Settles O46: the buffer is the packed text, whose stream is the nonets and the padding. -/
theorem lengthLaw : Obligations.LengthLaw := by
  intro T B hB n
  obtain ⟨-, rfl⟩ := encodeText_eq_ok_iff.mp hB
  have hbits : (bitsOf (textNonets T)).length = 9 * n := by
    rw [bitsOf_length, textNonets_length_eq_sum]
  obtain ⟨hlen, hunpack, -⟩ := unpackOfPackAddsOnlyPadding (bitsOf (textNonets T))
  rw [hbits] at hlen hunpack
  refine ⟨hlen, ?_, ?_, by omega, by omega⟩
  · rw [hunpack, List.take_left' hbits]
  · rw [hunpack, List.drop_left' hbits, hlen]

/-- `decode` inverts `encode`. -/
theorem decodeBuffer_eq_ok_iff {B : List Byte} {T : List CodePoint} :
    decodeBuffer B = some (.ok T) ↔ encodeText T = some (.ok B) :=
  (decodeFrom_eq_ok_iff_pack rfl).trans encodeText_eq_ok_iff.symm

/-- Settles O47: the buffers accepted as a text and the buffers the text encodes to are the same
ones. -/
theorem decodeIsTheExactInverse : Obligations.DecodeIsTheExactInverse := by
  refine ⟨fun B T => ?_, fun T T' B h h' => ?_, fun B => exists_congr fun _ =>
    decodeBuffer_eq_ok_iff⟩
  · rw [decodeBuffer_eq_ok_iff, iff_and_self]
    exact forall_isScalar_of_encodeText
  · rw [← decodeBuffer_eq_ok_iff] at h h'
    exact Result.ok.inj (Option.some.inj (h.symm.trans h'))

/-- Settles O48: the empty text has no nonets to pack, and `decode` inverts `encode`. -/
theorem emptyInputs : Obligations.EmptyInputs := by
  have hempty : encodeText [] = some (.ok []) := encodeText_of_scalar (T := []) (by simp)
  exact ⟨hempty, decodeBuffer_eq_ok_iff.mpr hempty⟩

/-- A multiple of eight nonets fills whole bytes. -/
theorem unpack_pack_bitsOf_of_mod {N : List Nonet} (h : N.length % 8 = 0) :
    unpack (pack (bitsOf N)) = bitsOf N := by
  obtain ⟨k, hk, hunpack⟩ := exists_unpack_pack_bitsOf N
  have hlen := congrArg List.length hunpack
  rw [unpack_length, List.length_append, bitsOf_length, List.length_replicate] at hlen
  obtain rfl : k = 0 := by omega
  rwa [List.replicate_zero, List.append_nil] at hunpack

/-- Settles O49: the first text's bytes stand in front of the second's stream; the three buffers are
run. -/
theorem concatenationAtAByteBoundary : Obligations.ConcatenationAtAByteBoundary := by
  refine ⟨fun T U B C hmod hB hC => ?_, by decide, by decide, by decide⟩
  obtain ⟨hT, rfl⟩ := encodeText_eq_ok_iff.mp hB
  obtain ⟨hU, rfl⟩ := encodeText_eq_ok_iff.mp hC
  refine encodeText_eq_ok_iff.mpr ⟨List.forall_mem_append.mpr ⟨hT, hU⟩, ?_⟩
  rw [textNonets_append, bitsOf_append, ← pack_unpack_append, unpack_pack_bitsOf_of_mod hmod]

/-- The first bit of a stream that holds a nonet is the flag of its first nonet. -/
theorem exists_completeNonets_cons {S : List Bool} (h : 9 ≤ S.length) :
    ∃ n N, completeNonets S = n :: N ∧ S.head? = some (nonetFlag n) := by
  have hlen := completeNonets_length S
  cases hN : completeNonets S with
  | nil =>
    rw [hN, List.length_nil] at hlen
    omega
  | cons n N =>
    refine ⟨n, N, rfl, ?_⟩
    rw [← bitsOf_completeNonets_append S, hN]
    rfl

/-- Settles O50: two bytes hold a nonet, whose flag is the first bit; one byte is a trailing group
of eight bits. -/
theorem leadingContinuationIsRejected : Obligations.LeadingContinuationIsRejected := by
  refine ⟨fun b0 b1 B hb0 => ?_, fun b => ?_⟩
  · obtain ⟨hlead, -⟩ := decodeClosedForm (b0 :: b1 :: B) State.reset rfl
    obtain ⟨n, N, hN, hhead⟩ := exists_completeNonets_cons (S := unpack (b0 :: b1 :: B))
      (by rw [unpack_length, List.length_cons, List.length_cons]; omega)
    have hflag : nonetFlag n = true := (Option.some.inj hhead).symm.trans hb0
    refine hlead ?_
    rw [hN, splitRuns_cons_of_flag N hflag]
    exact List.cons_ne_nil _ _
  · have hshort : (unpack [b]).length < 9 := by simp
    have hnonets : completeNonets (unpack [b]) = [] := completeNonets_bitsOf_append [] hshort
    obtain ⟨-, -, hsome⟩ := decodeClosedForm [b] State.reset rfl
    rw [hnonets] at hsome
    obtain ⟨hlen, -⟩ := hsome [] rfl rfl
    exact hlen (trailingGroup_length _)

/-! ### Transactions run back to back (R175) -/

/-- Any encoder transaction begun in the reset state: bytes and one `DONE`, which decide `encode`.
-/
theorem exists_encodeEvents_tokens (T : List CodePoint) {s : State} (hs : s.enc = EncUnit.reset) :
    ∃ (bs : List Byte) (c : CauseBits), encodeText T = some (resultOf c bs) ∧
      runEvents (encodeEvents T) s =
        .next (putPending [] (encAfter EncUnit.reset (bs.map .byte ++ [.done c]) s)) := by
  by_cases hT : ∀ c ∈ T, isScalar c = true
  · exact ⟨_, 0, encodeText_of_scalar hT, runEvents_encodeEvents_of_scalar hs hT⟩
  · have hbad : ∃ c ∈ T, isScalar c = false := by simpa using hT
    obtain ⟨bs, hrun⟩ := runEvents_encodeEvents_of_not_scalar hs hbad
    obtain ⟨-, herr⟩ := encodeClosedForm T State.reset rfl
    exact ⟨bs, ErrorCause.notScalar.code, herr hbad, hrun⟩

/-- The operands up to a `DONE` are closed by it. -/
theorem encResultsFrom_bytes_done (bs : List Byte) (c : CauseBits) (ts : List EncToken) :
    ∀ vs, encResultsFrom vs (bs.map .byte ++ .done c :: ts) =
      resultOf c (vs ++ bs) :: encResultsFrom [] ts := by
  induction bs with
  | nil =>
    intro vs
    rw [List.append_nil]
    rfl
  | cons b bs ih =>
    intro vs
    rw [List.append_cons vs b bs]
    exact ih (vs ++ [b])

theorem runEvents_encode_transactions (Ts : List (List CodePoint)) : ∀ {s : State},
    s.enc = EncUnit.reset → ∃ t toks, runEvents (Ts.flatMap encodeEvents) s = .next t ∧
      t.enc = EncUnit.reset ∧ t.encOut = s.encOut ++ toks ∧
      (encResultsFrom [] toks).map some = Ts.map encodeText := by
  induction Ts with
  | nil => exact fun {s} hs => ⟨_, [], runEvents_nil s, hs, (List.append_nil _).symm, rfl⟩
  | cons T Ts ih =>
    intro s hs
    obtain ⟨bs, c, hT, hrun⟩ := exists_encodeEvents_tokens T hs
    obtain ⟨t, toks, hrest, hreset, hout, hresults⟩ :=
      ih (s := putPending [] (encAfter EncUnit.reset (bs.map .byte ++ [.done c]) s)) rfl
    refine ⟨t, bs.map .byte ++ .done c :: toks, ?_, hreset, ?_, ?_⟩
    · rw [List.flatMap_cons, runEvents_append _ hrun, hrest]
    · rw [hout]
      simp
    · rw [encResultsFrom_bytes_done, List.map_cons, List.map_cons, hresults, hT, List.nil_append]

/-- The tokens for whole runs are characters and one `DONE`. -/
theorem exists_runTokens_eq (t : List Bool) (runs : List (List Byte)) :
    ∃ (cps : List CodePoint) (c : CauseBits), runTokens t runs = cps.map .char ++ [.done c] := by
  rcases forall_some_or_exists_none runs with ⟨cps, hcps⟩ | hnone
  · exact ⟨cps, _, runTokens_of_forall_some hcps⟩
  · obtain ⟨cps, hcps⟩ := runTokens_of_exists_none (t := t) hnone
    exact ⟨cps, _, hcps⟩

/-- Any decoder transaction begun in the reset state: characters and one `DONE`, which decide
`decode`. -/
theorem exists_decodeEvents_tokens (B : List Byte) {s : State} (hs : s.dec = DecUnit.reset) :
    ∃ (cps : List CodePoint) (c : CauseBits) (t : State), decodeBuffer B = some (resultOf c cps) ∧
      runEvents (decodeEvents B) s = .next t ∧ t.dec = DecUnit.reset ∧
      t.decOut = s.decOut ++ (cps.map .char ++ [.done c]) := by
  obtain ⟨t, hrun, hreset, hout⟩ := runEvents_decodeEvents_tokensFor B (s := s) (hs ▸ decInv_reset)
  have htokens : ∃ (cps : List CodePoint) (c : CauseBits),
      DecUnit.reset.tokensFor (unpack B) = cps.map .char ++ [.done c] := by
    rw [tokensFor_reset]
    by_cases hlead : (splitRuns (completeNonets (unpack B))).1 = []
    · rw [tokensOwed_of_lead_nil rfl rfl hlead]
      exact exists_runTokens_eq _ _
    · exact ⟨[], _, tokensOwed_of_lead_ne_nil rfl rfl hlead _⟩
  obtain ⟨cps, c, htoks⟩ := htokens
  refine ⟨cps, c, t, ?_, hrun, hreset, by rw [hout, hs, htoks]⟩
  rw [decodeBuffer, decodeFrom_of_reset rfl, htoks, decResult_chars_done]

/-- The operands up to a `DONE` are closed by it. -/
theorem decResultsFrom_chars_done (cps : List CodePoint) (c : CauseBits) (ts : List DecToken) :
    ∀ vs, decResultsFrom vs (cps.map .char ++ .done c :: ts) =
      resultOf c (vs ++ cps) :: decResultsFrom [] ts := by
  induction cps with
  | nil =>
    intro vs
    rw [List.append_nil]
    rfl
  | cons cp cps ih =>
    intro vs
    rw [List.append_cons vs cp cps]
    exact ih (vs ++ [cp])

theorem runEvents_decode_transactions (Bs : List (List Byte)) : ∀ {s : State},
    s.dec = DecUnit.reset → ∃ t toks, runEvents (Bs.flatMap decodeEvents) s = .next t ∧
      t.dec = DecUnit.reset ∧ t.decOut = s.decOut ++ toks ∧
      (decResultsFrom [] toks).map some = Bs.map decodeBuffer := by
  induction Bs with
  | nil => exact fun {s} hs => ⟨_, [], runEvents_nil s, hs, (List.append_nil _).symm, rfl⟩
  | cons B Bs ih =>
    intro s hs
    obtain ⟨cps, c, s', hB, hrun, hreset', hout'⟩ := exists_decodeEvents_tokens B hs
    obtain ⟨t, toks, hrest, hreset, hout, hresults⟩ := ih hreset'
    refine ⟨t, cps.map .char ++ .done c :: toks, ?_, hreset, ?_, ?_⟩
    · rw [List.flatMap_cons, runEvents_append _ hrun, hrest]
    · rw [hout, hout']
      simp
    · rw [decResultsFrom_chars_done, List.map_cons, List.map_cons, hresults, hB, List.nil_append]

/-- Settles O52: each transaction ends in the reset state, from which the next one begins. -/
theorem transactionsAreIndependent : Obligations.TransactionsAreIndependent := by
  refine ⟨fun Ts s hs hempty => ?_, fun Bs s hs hempty => ?_⟩
  · obtain ⟨t, toks, hrun, hreset, hout, hresults⟩ := runEvents_encode_transactions Ts hs
    rw [hempty, List.nil_append] at hout
    exact ⟨t, hrun, hreset, hout ▸ hresults⟩
  · obtain ⟨t, toks, hrun, hreset, hout, hresults⟩ := runEvents_decode_transactions Bs hs
    rw [hempty, List.nil_append] at hout
    exact ⟨t, hrun, hreset, hout ▸ hresults⟩

end Sys2Proof.Machine
end

section
/-!
PROOFS for 60_exceptions.md. A cause code is two fields side by side, so its value and what is read
from it are facts about any two fields. A run over one event is the step that takes it, so an idle
block takes a later event as any block does. An event that meets a unit in `FAULT` either is for the
other unit and leaves this one alone, or is this unit's `PUT`, ignored, its `END` or its reset.
-/

namespace Sys2Proof.Machine

/-! ### The cause codes and `raise` (R191, R197) -/

/-- A code is its `SUB` above its two bits of `KIND`. -/
theorem toNat_sub_append_kind (sub : BitVec 3) (kind : BitVec 2) :
    (sub ++ kind).toNat = sub.toNat * 4 + kind.toNat := by
  rw [BitVec.toNat_append, ← Nat.shiftLeft_add_eq_or_of_lt kind.isLt, Nat.shiftLeft_eq]

theorem causeKind_append (sub : BitVec 3) (kind : BitVec 2) : causeKind (sub ++ kind) = kind :=
  BitVec.extractLsb'_append_eq_right

theorem causeSub_append (sub : BitVec 3) (kind : BitVec 2) : causeSub (sub ++ kind) = sub :=
  BitVec.extractLsb'_append_eq_left

/-- Settles O30: the five codes are computed, their fields are read off any code, and `raise` is the
two register writes in either unit. -/
theorem raiseWritesStatusAndCause : Obligations.RaiseWritesStatusAndCause := by
  refine ⟨by decide, fun e => ?_, fun e s => ⟨rfl, rfl⟩⟩
  exact ⟨toNat_sub_append_kind e.sub e.kind.number, causeKind_append e.sub e.kind.number,
    causeSub_append e.sub e.kind.number⟩

/-! ### The idle block (R211) -/

/-- A run over one event is the step that takes it. -/
theorem runEvents_singleton (e : Event) (s : State) :
    runEvents [e] s = step { s with pending := [e] } := by
  obtain ⟨t, ht⟩ := afterEvent_next e s
  calc runEvents [e] s = .next (putPending [] t) := runEvents_cons [] ht
    _ = mapNext (putPending []) (afterEvent e s) := by rw [ht, mapNext_next]
    _ = afterEvent e (putPending [] s) := (afterEvent_putPending e [] s).symm
    _ = step (putPending [e] s) := (step_of_pending (s := putPending [e] s) rfl).symm

/-- Settles O8: an idle step changes nothing, and one event presented is taken by the next step. -/
theorem idleBlockHoldsItsRegisters : Obligations.IdleBlockHoldsItsRegisters := fun s e hidle =>
  ⟨step_idle hidle, (runEvents_singleton e s).symm⟩

/-! ### A unit in `FAULT` (R199) -/

/-- A word at the encoder's port is a `PUT` or the `END`. -/
theorem decodeEncCmd_cases (w : Word22) :
    (∃ cp, decodeEncCmd w = .encPut cp) ∨ decodeEncCmd w = .encEnd := by
  unfold decodeEncCmd
  split
  · exact .inr rfl
  · exact .inl ⟨_, rfl⟩

/-- A word at the decoder's port is a `PUT` or the `END`. -/
theorem decodeDecCmd_cases (w : Word9) :
    (∃ b, decodeDecCmd w = .decPut b) ∨ decodeDecCmd w = .decEnd := by
  unfold decodeDecCmd
  split
  · exact .inr rfl
  · exact .inl ⟨_, rfl⟩

/-- A step that takes an event for one unit leaves the other as it is. -/
theorem step_sameUnit_of_ne {s : State} {e : Event} {rest : List Event} {u : UnitId}
    (hpending : s.pending = e :: rest) (he : e.unit ≠ u) :
    ∃ t, step s = .next t ∧ SameUnit u t s := by
  obtain ⟨t, ht, hsame⟩ := afterEvent_sameUnit_of_ne he (putPending rest s)
  exact ⟨t, (step_of_pending hpending).trans ht, hsame.trans (by cases u <;> exact ⟨rfl, rfl⟩)⟩

/-- A step that takes an `ENC.PUT` in `FAULT` only consumes it. -/
theorem step_encPut_of_fault {s : State} {w : Word22} {cp : CodePoint} {rest : List Event}
    (hpending : s.pending = .encCmd w :: rest) (hw : decodeEncCmd w = .encPut cp)
    (hfault : s.enc.status = .fault) : step s = .next { s with pending := rest } := by
  rw [step_of_pending hpending, afterEvent, hw]
  exact exec_encPut_of_fault cp hfault

/-- A step that takes a `DEC.PUT` in `FAULT` only consumes it. -/
theorem step_decPut_of_fault {s : State} {w : Word9} {b : Byte} {rest : List Event}
    (hpending : s.pending = .decCmd w :: rest) (hw : decodeDecCmd w = .decPut b)
    (hfault : s.dec.status = .fault) : step s = .next { s with pending := rest } := by
  rw [step_of_pending hpending, afterEvent, hw]
  exact exec_decPut_of_fault b hfault

/-- No event but its `END` and its reset moves the encoder while it is in `FAULT`. -/
theorem step_sameUnit_enc_of_fault {s : State} {e : Event} {rest : List Event}
    (hpending : s.pending = e :: rest) (hfault : s.enc.status = .fault) (hreset : e ≠ .reset .enc)
    (hend : ∀ w, e = .encCmd w → decodeEncCmd w ≠ .encEnd) :
    ∃ t, step s = .next t ∧ SameUnit .enc t s := by
  cases e with
  | encCmd w =>
    rcases decodeEncCmd_cases w with ⟨cp, hput⟩ | hw
    · exact ⟨_, step_encPut_of_fault hpending hput hfault, rfl, rfl⟩
    · exact absurd hw (hend w rfl)
  | decCmd w => exact step_sameUnit_of_ne hpending (by simp [Event.unit])
  | reset u =>
    cases u with
    | enc => exact absurd rfl hreset
    | dec => exact step_sameUnit_of_ne hpending (by simp [Event.unit])

/-- No event but its `END` and its reset moves the decoder while it is in `FAULT`. -/
theorem step_sameUnit_dec_of_fault {s : State} {e : Event} {rest : List Event}
    (hpending : s.pending = e :: rest) (hfault : s.dec.status = .fault) (hreset : e ≠ .reset .dec)
    (hend : ∀ w, e = .decCmd w → decodeDecCmd w ≠ .decEnd) :
    ∃ t, step s = .next t ∧ SameUnit .dec t s := by
  cases e with
  | encCmd w => exact step_sameUnit_of_ne hpending (by simp [Event.unit])
  | decCmd w =>
    rcases decodeDecCmd_cases w with ⟨b, hput⟩ | hw
    · exact ⟨_, step_decPut_of_fault hpending hput hfault, rfl, rfl⟩
    · exact absurd hw (hend w rfl)
  | reset u =>
    cases u with
    | enc => exact step_sameUnit_of_ne hpending (by simp [Event.unit])
    | dec => exact absurd rfl hreset

/-- Settles O31: a `PUT` is consumed and ignored, and every event left is for the other unit. -/
theorem faultIsSticky : Obligations.FaultIsSticky := by
  intro s e rest hpending
  refine ⟨fun hfault => ⟨fun w cp he hput => ?_, step_sameUnit_enc_of_fault hpending hfault⟩,
    fun hfault => ⟨fun w b he hput => ?_, step_sameUnit_dec_of_fault hpending hfault⟩⟩
  · subst he
    exact step_encPut_of_fault hpending hput hfault
  · subst he
    exact step_decPut_of_fault hpending hput hfault

end Sys2Proof.Machine
end

section
/-!
PROOFS about the reset inputs (70_reset_and_hazards.md R220, R221): the step that takes one is the
unit's return to its reset state, which for each unit is one write of the registers.
-/

namespace Sys2Proof.Machine

/-- A step that takes the reset input of `u` consumes it and returns `u` to its reset state. -/
theorem step_reset {s : State} {u : UnitId} {rest : List Event}
    (hpending : s.pending = .reset u :: rest) :
    step s = .next (returnToReset u { s with pending := rest }) :=
  step_of_pending hpending

/-- Settles O7: the return to the reset state writes the registers of the unit it is given alone. -/
theorem resetInputResetsOneUnit : Obligations.ResetInputResetsOneUnit := by
  intro s rest
  constructor
  case left =>
    intro hpending
    rw [step_reset hpending, returnToReset, EncUnit.reset]
  case right =>
    intro hpending
    rw [step_reset hpending, returnToReset, DecUnit.reset]

end Sys2Proof.Machine
end
